-- ==== Sys2Proof/Word.lean ====
section
/-! DEFINITION. The words of the machine (00_scope.md section 7). -/

namespace Sys2Proof

/-- A 16-bit word: a register value or an address (`u16`), and a data word (`w16`); 10_state.md R10, R16, R18. -/
abbrev Word := BitVec 16

/-- One 32-bit code word, one instruction (10_state.md R17, 30_encoding.md R50). -/
abbrev CodeWord := BitVec 32

/-- One byte of the program image or of a stream (20_memory.md R31). -/
abbrev Byte := BitVec 8

end Sys2Proof
end

