-- ==== Sys2Proof/Config.lean ====
section
/-! DEFINITION. What the spec leaves OPEN: the two parameters of 00_scope.md R2 that have no default. Both are opaque constants, fixed for
one machine: no proof can see their value, so what is proved holds for every value. -/

namespace Sys2Proof

/-- `GEGT_EQ`, the truth of `ge` and `gt` on equal operands, one value for both routines (44_primitives_alu.md R134, R135). A free value:
assumption log 9. -/
opaque Config.geGtEq : Bool

/-- `PARSE_INT` of 45_primitives_io.md R157: on the input it answers nothing (rejected) or the integer read and HOW MANY bytes it consumed,
so that what is left is a suffix of the input by construction. A free value: assumption log 10. -/
opaque Config.parseInt : List Byte → Option (Int × Nat)

end Sys2Proof
end

