-- ==== Sys2Proof/Syntax.lean ====
section
/-! DEFINITION. The syntax of the instruction set: the registers, the 16 opcode values, and one constructor of `Instr` per row of
spec/opcode_table.json. An instruction holds the fields it reads and no others (30_encoding.md R56). -/

namespace Sys2Proof

/-- The 16 registers by name, in the order of 10_state.md R10. -/
inductive Reg where
  | cb | ct | pb | pt | sb | st | hb | ht | lb | l1 | l2 | l3 | l4 | l5 | l6 | cp
  deriving DecidableEq, Repr

/-- The 16 values of `OP` by name (30_encoding.md R55): 14 instructions and two reserved values. -/
inductive OpName where
  | load | loada | loadi | loadl | store | storei | reserved6 | reserved7
  | call | ret | push | pop | jump | jumpi | jumpif | halt
  deriving DecidableEq, Repr

/-- One instruction. `r` is the register selector `R`, `n` the unsigned operand `N`, `d` the 16 bits of the signed operand `D`
(30_encoding.md R51 to R53). -/
inductive Instr where
  /-- `LOAD(N) D[R]`, 41_load_store.md R91. -/
  | load (r : Reg) (n : BitVec 8) (d : Word)
  /-- `LOADA D[R]`, 41_load_store.md R92. -/
  | loada (r : Reg) (d : Word)
  /-- `LOADI(N)`, 41_load_store.md R93. -/
  | loadi (n : BitVec 8)
  /-- `LOADL D`, 41_load_store.md R95. -/
  | loadl (d : Word)
  /-- `STORE(N) D[R]`, 41_load_store.md R96. -/
  | store (r : Reg) (n : BitVec 8) (d : Word)
  /-- `STOREI(N)`, 41_load_store.md R97. -/
  | storei (n : BitVec 8)
  /-- The opcode value 6, without an instruction; 43_control_transfer.md R114. -/
  | reserved6
  /-- The opcode value 7, without an instruction; 43_control_transfer.md R114. -/
  | reserved7
  /-- `CALL(N) D[R]`, 43_control_transfer.md R105, R106; `n` is a register number. -/
  | call (r : Reg) (n : BitVec 8) (d : Word)
  /-- `RETURN(N) D`, 43_control_transfer.md R108. -/
  | ret (n : BitVec 8) (d : Word)
  /-- `PUSH D`, 42_stack_adjust.md R100. -/
  | push (d : Word)
  /-- `POP(N) D`, 42_stack_adjust.md R101. -/
  | pop (n : BitVec 8) (d : Word)
  /-- `JUMP D[R]`, 43_control_transfer.md R109. -/
  | jump (r : Reg) (d : Word)
  /-- `JUMPI`, 43_control_transfer.md R110. -/
  | jumpi
  /-- `JUMPIF(N) D[R]`, 43_control_transfer.md R111. -/
  | jumpif (r : Reg) (n : BitVec 8) (d : Word)
  /-- `HALT`, 43_control_transfer.md R113. -/
  | halt
  /-- Primitive 1, `id`, 44_primitives_alu.md R122. -/
  | primId
  /-- Primitive 2, `not`, 44_primitives_alu.md R123. -/
  | primNot
  /-- Primitive 3, `and`, 44_primitives_alu.md R124. -/
  | primAnd
  /-- Primitive 4, `or`, 44_primitives_alu.md R125. -/
  | primOr
  /-- Primitive 5, `succ`, 44_primitives_alu.md R126. -/
  | primSucc
  /-- Primitive 6, `pred`, 44_primitives_alu.md R127. -/
  | primPred
  /-- Primitive 7, `neg`, 44_primitives_alu.md R128. -/
  | primNeg
  /-- Primitive 8, `add`, 44_primitives_alu.md R129. -/
  | primAdd
  /-- Primitive 9, `sub`, 44_primitives_alu.md R130. -/
  | primSub
  /-- Primitive 10, `mult`, 44_primitives_alu.md R131. -/
  | primMult
  /-- Primitive 11, `div`, 44_primitives_alu.md R139. -/
  | primDiv
  /-- Primitive 12, `mod`, 44_primitives_alu.md R140. -/
  | primMod
  /-- Primitive 13, `lt`, 44_primitives_alu.md R132. -/
  | primLt
  /-- Primitive 14, `le`, 44_primitives_alu.md R133. -/
  | primLe
  /-- Primitive 15, `ge`, 44_primitives_alu.md R134. -/
  | primGe
  /-- Primitive 16, `gt`, 44_primitives_alu.md R135. -/
  | primGt
  /-- Primitive 17, `eq`, 44_primitives_alu.md R136. -/
  | primEq
  /-- Primitive 18, `neq`, 44_primitives_alu.md R137. -/
  | primNeq
  /-- Primitive 19, `eol`, 45_primitives_io.md R151. -/
  | primEol
  /-- Primitive 20, `eof`, 45_primitives_io.md R152. -/
  | primEof
  /-- Primitive 21, `get`, 45_primitives_io.md R153. -/
  | primGet
  /-- Primitive 22, `put`, 45_primitives_io.md R154. -/
  | primPut
  /-- Primitive 23, `geteol`, 45_primitives_io.md R155. -/
  | primGeteol
  /-- Primitive 24, `puteol`, 45_primitives_io.md R156. -/
  | primPuteol
  /-- Primitive 25, `getint`, 45_primitives_io.md R157. -/
  | primGetint
  /-- Primitive 26, `putint`, 45_primitives_io.md R158. -/
  | primPutint
  /-- Identifier 27, reserved; 45_primitives_io.md R159. -/
  | primReserved27
  /-- Identifier 28, reserved; 45_primitives_io.md R159. -/
  | primReserved28
  deriving DecidableEq, Repr

end Sys2Proof
end

