-- ==== Sys2Proof/WellFormed.lean ====
section
/-! DEFINITION. Which terms of `Instr` are instructions of the machine. The fields' types carry every bound but one: a `CALL` with
`R` = `PB` and `D` in 1 to 28 is a primitive and no `CALL` (30_encoding.md R57). -/

namespace Sys2Proof

/-- The test of 30_encoding.md R57 on the fields `R` and `D` of a `CALL`: `R` is `PB` and `0 < D < 29`. -/
def selectsPrimitive (r : Reg) (d : Word) : Bool :=
  decide (r = .pb) && (decide (1 ≤ d.toInt) && decide (d.toInt ≤ 28))

/-- Well-formed instructions: the frame-path `CALL` does not select a primitive. Operands for which the spec names a fault (a negative
count, a register number of 16 or more) are well-formed: they decode, and running them raises that fault. -/
def Instr.wf : Instr → Bool
  | .call r _ d => !selectsPrimitive r d
  | .load .. | .loada .. | .loadi _ | .loadl _ | .store .. | .storei _ | .reserved6 | .reserved7 | .ret .. | .push _ | .pop .. | .jump ..
  | .jumpi | .jumpif .. | .halt => true
  | .primId | .primNot | .primAnd | .primOr | .primSucc | .primPred | .primNeg | .primAdd | .primSub | .primMult | .primDiv | .primMod
  | .primLt | .primLe | .primGe | .primGt | .primEq | .primNeq => true
  | .primEol | .primEof | .primGet | .primPut | .primGeteol | .primPuteol | .primGetint | .primPutint | .primReserved27
  | .primReserved28 => true

end Sys2Proof
end

