-- ==== Sys2Proof/Decode.lean ====
section
/-! DEFINITION. Decoding and encoding of the one 32-bit format (30_encoding.md), the three maps of numbers to names (`OPMAP`, `REGMAP`,
`PRIMMAP`, 00_scope.md R2, at their default values: assumption log 11), the byte order of a program image (20_memory.md R31), and the opcode
table of R63. -/

namespace Sys2Proof

/-! ## The four fields (30_encoding.md R51, R52) -/

/-- `OP = w[31:28]`. -/
def opField (w : CodeWord) : BitVec 4 := w.extractLsb' 28 4
/-- `R = w[27:24]`. -/
def rField (w : CodeWord) : BitVec 4 := w.extractLsb' 24 4
/-- `N = w[23:16]`. -/
def nField (w : CodeWord) : BitVec 8 := w.extractLsb' 16 8
/-- `D`, the 16 bits `w[15:0]`; its signed reading is `toInt`. -/
def dField (w : CodeWord) : Word := w.extractLsb' 0 16

/-- The code word with the given fields, most significant first (R51). -/
def packWord (op r : BitVec 4) (n : BitVec 8) (d : Word) : CodeWord := op ++ r ++ n ++ d

/-! ## The maps -/

/-- `REGMAP`: the register a number selects (10_state.md R10). -/
def regMap (k : BitVec 4) : Reg :=
  match k.toNat with
  | 0 => .cb
  | 1 => .ct
  | 2 => .pb
  | 3 => .pt
  | 4 => .sb
  | 5 => .st
  | 6 => .hb
  | 7 => .ht
  | 8 => .lb
  | 9 => .l1
  | 10 => .l2
  | 11 => .l3
  | 12 => .l4
  | 13 => .l5
  | 14 => .l6
  | _ => .cp

/-- The number of a register (10_state.md R10). -/
def regNumber : Reg → BitVec 4
  | .cb => 0
  | .ct => 1
  | .pb => 2
  | .pt => 3
  | .sb => 4
  | .st => 5
  | .hb => 6
  | .ht => 7
  | .lb => 8
  | .l1 => 9
  | .l2 => 10
  | .l3 => 11
  | .l4 => 12
  | .l5 => 13
  | .l6 => 14
  | .cp => 15

/-- `OPMAP`: what an opcode value names (30_encoding.md R55). -/
def opMap (k : BitVec 4) : OpName :=
  match k.toNat with
  | 0 => .load
  | 1 => .loada
  | 2 => .loadi
  | 3 => .loadl
  | 4 => .store
  | 5 => .storei
  | 6 => .reserved6
  | 7 => .reserved7
  | 8 => .call
  | 9 => .ret
  | 10 => .push
  | 11 => .pop
  | 12 => .jump
  | 13 => .jumpi
  | 14 => .jumpif
  | _ => .halt

/-- The value of `OP` of an opcode name (30_encoding.md R55). -/
def opNumber : OpName → BitVec 4
  | .load => 0
  | .loada => 1
  | .loadi => 2
  | .loadl => 3
  | .store => 4
  | .storei => 5
  | .reserved6 => 6
  | .reserved7 => 7
  | .call => 8
  | .ret => 9
  | .push => 10
  | .pop => 11
  | .jump => 12
  | .jumpi => 13
  | .jumpif => 14
  | .halt => 15

/-- `PRIMMAP`: the instruction a primitive identifier names (30_encoding.md R58), nothing outside 1 to 28. -/
def primMap (ident : Nat) : Option Instr :=
  match ident with
  | 1 => some .primId
  | 2 => some .primNot
  | 3 => some .primAnd
  | 4 => some .primOr
  | 5 => some .primSucc
  | 6 => some .primPred
  | 7 => some .primNeg
  | 8 => some .primAdd
  | 9 => some .primSub
  | 10 => some .primMult
  | 11 => some .primDiv
  | 12 => some .primMod
  | 13 => some .primLt
  | 14 => some .primLe
  | 15 => some .primGe
  | 16 => some .primGt
  | 17 => some .primEq
  | 18 => some .primNeq
  | 19 => some .primEol
  | 20 => some .primEof
  | 21 => some .primGet
  | 22 => some .primPut
  | 23 => some .primGeteol
  | 24 => some .primPuteol
  | 25 => some .primGetint
  | 26 => some .primPutint
  | 27 => some .primReserved27
  | 28 => some .primReserved28
  | _ => none

/-! ## Decoding -/

/-- A `CALL` word: a primitive when `R` is `PB` and `D` is an identifier, else the frame path (30_encoding.md R57, R59). -/
def decodeCall (r : Reg) (n : BitVec 8) (d : Word) : Instr :=
  if r = .pb then (primMap d.toNat).getD (.call r n d) else .call r n d

/-- Decoding of a code word: total, with no fault of its own (30_encoding.md R54). A field an instruction does not read is dropped
(R56). -/
def decode (w : CodeWord) : Instr :=
  match opMap (opField w) with
  | .load => .load (regMap (rField w)) (nField w) (dField w)
  | .loada => .loada (regMap (rField w)) (dField w)
  | .loadi => .loadi (nField w)
  | .loadl => .loadl (dField w)
  | .store => .store (regMap (rField w)) (nField w) (dField w)
  | .storei => .storei (nField w)
  | .reserved6 => .reserved6
  | .reserved7 => .reserved7
  | .call => decodeCall (regMap (rField w)) (nField w) (dField w)
  | .ret => .ret (nField w) (dField w)
  | .push => .push (dField w)
  | .pop => .pop (nField w) (dField w)
  | .jump => .jump (regMap (rField w)) (dField w)
  | .jumpi => .jumpi
  | .jumpif => .jumpif (regMap (rField w)) (nField w) (dField w)
  | .halt => .halt

/-- Four image bytes to one code word, big-endian: byte 0 is the most significant (20_memory.md R31). -/
def assemble (b0 b1 b2 b3 : Byte) : CodeWord := b0 ++ b1 ++ b2 ++ b3

/-- The code words of a program image, nothing when its length is no multiple of 4 (30_encoding.md R62, 70_reset_and_hazards.md R201). -/
def imageWords : List Byte → Option (List CodeWord)
  | [] => some []
  | b0 :: b1 :: b2 :: b3 :: rest => (imageWords rest).map (assemble b0 b1 b2 b3 :: ·)
  | _ => none

/-- The four image bytes of a code word, in the order they lie in the image (20_memory.md R31). -/
def imageBytes (w : CodeWord) : List Byte :=
  [w.extractLsb' 24 8, w.extractLsb' 16 8, w.extractLsb' 8 8, w.extractLsb' 0 8]

/-- Why bytes hold no instruction. -/
inductive DecodeError where
  /-- Fewer than the four bytes of a code word are left. -/
  | truncated
  deriving DecidableEq, Repr

/-- The first instruction of a sequence of image bytes, and the bytes after it. -/
def decodeBytes : List Byte → Except DecodeError (Instr × List Byte)
  | b0 :: b1 :: b2 :: b3 :: rest => .ok (decode (assemble b0 b1 b2 b3), rest)
  | _ => .error .truncated

/-- The instruction the decoder reads from an instruction whose bits are `w`, numbered as spec/opcode_table.json numbers them; the bits from
`nbits` on are 0. The bytes go to the decoder in the order they lie in the image. -/
def decodeTableWord (nbits w : Nat) : Option Instr :=
  match decodeBytes (imageBytes (BitVec.ofNat 32 (w % 2 ^ nbits))) with
  | .ok (i, _) => some i
  | .error _ => none

/-! ## Encoding -/

/-- The canonical code word of primitive `ident`: `0x82000000 + ident` (30_encoding.md R57). -/
def primWord (ident : Word) : CodeWord := packWord (opNumber .call) (regNumber .pb) 0 ident

/-- The code word of an instruction, written from the tables of R51, R55 and R58; fields it does not read are 0 (R60). -/
def encode : Instr → CodeWord
  | .load r n d => packWord (opNumber .load) (regNumber r) n d
  | .loada r d => packWord (opNumber .loada) (regNumber r) 0 d
  | .loadi n => packWord (opNumber .loadi) 0 n 0
  | .loadl d => packWord (opNumber .loadl) 0 0 d
  | .store r n d => packWord (opNumber .store) (regNumber r) n d
  | .storei n => packWord (opNumber .storei) 0 n 0
  | .reserved6 => packWord (opNumber .reserved6) 0 0 0
  | .reserved7 => packWord (opNumber .reserved7) 0 0 0
  | .call r n d => packWord (opNumber .call) (regNumber r) n d
  | .ret n d => packWord (opNumber .ret) 0 n d
  | .push d => packWord (opNumber .push) 0 0 d
  | .pop n d => packWord (opNumber .pop) 0 n d
  | .jump r d => packWord (opNumber .jump) (regNumber r) 0 d
  | .jumpi => packWord (opNumber .jumpi) 0 0 0
  | .jumpif r n d => packWord (opNumber .jumpif) (regNumber r) n d
  | .halt => packWord (opNumber .halt) 0 0 0
  | .primId => primWord 1
  | .primNot => primWord 2
  | .primAnd => primWord 3
  | .primOr => primWord 4
  | .primSucc => primWord 5
  | .primPred => primWord 6
  | .primNeg => primWord 7
  | .primAdd => primWord 8
  | .primSub => primWord 9
  | .primMult => primWord 10
  | .primDiv => primWord 11
  | .primMod => primWord 12
  | .primLt => primWord 13
  | .primLe => primWord 14
  | .primGe => primWord 15
  | .primGt => primWord 16
  | .primEq => primWord 17
  | .primNeq => primWord 18
  | .primEol => primWord 19
  | .primEof => primWord 20
  | .primGet => primWord 21
  | .primPut => primWord 22
  | .primGeteol => primWord 23
  | .primPuteol => primWord 24
  | .primGetint => primWord 25
  | .primPutint => primWord 26
  | .primReserved27 => primWord 27
  | .primReserved28 => primWord 28

/-! ## The opcode table (30_encoding.md R63) -/

/-- What a row of the opcode table stands for: an opcode value, or a primitive identifier. -/
inductive RowName where
  | op (o : OpName)
  | prim (ident : Nat)
  deriving DecidableEq, Repr

/-- One row: it matches a code word `w` when `(w AND mask) = pattern`. -/
structure OpRow where
  name : RowName
  pattern : CodeWord
  mask : CodeWord
  priority : Nat
  deriving DecidableEq, Repr

/-- Whether a row matches a code word (R63). -/
def rowMatches (row : OpRow) (w : CodeWord) : Bool := (w &&& row.mask) == row.pattern

/-- The rows of the 16 opcode values, as spec/opcode_table.json prints them. -/
def opcodeRows : List OpRow :=
  [⟨.op .load, 0x00000000, 0xF0000000, 1⟩, ⟨.op .loada, 0x10000000, 0xF0000000, 1⟩, ⟨.op .loadi, 0x20000000, 0xF0000000, 1⟩,
   ⟨.op .loadl, 0x30000000, 0xF0000000, 1⟩, ⟨.op .store, 0x40000000, 0xF0000000, 1⟩, ⟨.op .storei, 0x50000000, 0xF0000000, 1⟩,
   ⟨.op .reserved6, 0x60000000, 0xF0000000, 1⟩, ⟨.op .reserved7, 0x70000000, 0xF0000000, 1⟩, ⟨.op .call, 0x80000000, 0xF0000000, 1⟩,
   ⟨.op .ret, 0x90000000, 0xF0000000, 1⟩, ⟨.op .push, 0xA0000000, 0xF0000000, 1⟩, ⟨.op .pop, 0xB0000000, 0xF0000000, 1⟩,
   ⟨.op .jump, 0xC0000000, 0xF0000000, 1⟩, ⟨.op .jumpi, 0xD0000000, 0xF0000000, 1⟩, ⟨.op .jumpif, 0xE0000000, 0xF0000000, 1⟩,
   ⟨.op .halt, 0xF0000000, 0xF0000000, 1⟩]

/-- The rows of the 28 primitive identifiers, as spec/opcode_table.json prints them. -/
def primitiveRows : List OpRow :=
  [⟨.prim 1, 0x82000001, 0xFF00FFFF, 2⟩, ⟨.prim 2, 0x82000002, 0xFF00FFFF, 2⟩, ⟨.prim 3, 0x82000003, 0xFF00FFFF, 2⟩,
   ⟨.prim 4, 0x82000004, 0xFF00FFFF, 2⟩, ⟨.prim 5, 0x82000005, 0xFF00FFFF, 2⟩, ⟨.prim 6, 0x82000006, 0xFF00FFFF, 2⟩,
   ⟨.prim 7, 0x82000007, 0xFF00FFFF, 2⟩, ⟨.prim 8, 0x82000008, 0xFF00FFFF, 2⟩, ⟨.prim 9, 0x82000009, 0xFF00FFFF, 2⟩,
   ⟨.prim 10, 0x8200000A, 0xFF00FFFF, 2⟩, ⟨.prim 11, 0x8200000B, 0xFF00FFFF, 2⟩, ⟨.prim 12, 0x8200000C, 0xFF00FFFF, 2⟩,
   ⟨.prim 13, 0x8200000D, 0xFF00FFFF, 2⟩, ⟨.prim 14, 0x8200000E, 0xFF00FFFF, 2⟩, ⟨.prim 15, 0x8200000F, 0xFF00FFFF, 2⟩,
   ⟨.prim 16, 0x82000010, 0xFF00FFFF, 2⟩, ⟨.prim 17, 0x82000011, 0xFF00FFFF, 2⟩, ⟨.prim 18, 0x82000012, 0xFF00FFFF, 2⟩,
   ⟨.prim 19, 0x82000013, 0xFF00FFFF, 2⟩, ⟨.prim 20, 0x82000014, 0xFF00FFFF, 2⟩, ⟨.prim 21, 0x82000015, 0xFF00FFFF, 2⟩,
   ⟨.prim 22, 0x82000016, 0xFF00FFFF, 2⟩, ⟨.prim 23, 0x82000017, 0xFF00FFFF, 2⟩, ⟨.prim 24, 0x82000018, 0xFF00FFFF, 2⟩,
   ⟨.prim 25, 0x82000019, 0xFF00FFFF, 2⟩, ⟨.prim 26, 0x8200001A, 0xFF00FFFF, 2⟩, ⟨.prim 27, 0x8200001B, 0xFF00FFFF, 2⟩,
   ⟨.prim 28, 0x8200001C, 0xFF00FFFF, 2⟩]

/-- The row of the opcode table an instruction belongs to. -/
def rowOf : Instr → RowName
  | .load .. => .op .load
  | .loada .. => .op .loada
  | .loadi _ => .op .loadi
  | .loadl _ => .op .loadl
  | .store .. => .op .store
  | .storei _ => .op .storei
  | .reserved6 => .op .reserved6
  | .reserved7 => .op .reserved7
  | .call .. => .op .call
  | .ret .. => .op .ret
  | .push _ => .op .push
  | .pop .. => .op .pop
  | .jump .. => .op .jump
  | .jumpi => .op .jumpi
  | .jumpif .. => .op .jumpif
  | .halt => .op .halt
  | .primId => .prim 1
  | .primNot => .prim 2
  | .primAnd => .prim 3
  | .primOr => .prim 4
  | .primSucc => .prim 5
  | .primPred => .prim 6
  | .primNeg => .prim 7
  | .primAdd => .prim 8
  | .primSub => .prim 9
  | .primMult => .prim 10
  | .primDiv => .prim 11
  | .primMod => .prim 12
  | .primLt => .prim 13
  | .primLe => .prim 14
  | .primGe => .prim 15
  | .primGt => .prim 16
  | .primEq => .prim 17
  | .primNeq => .prim 18
  | .primEol => .prim 19
  | .primEof => .prim 20
  | .primGet => .prim 21
  | .primPut => .prim 22
  | .primGeteol => .prim 23
  | .primPuteol => .prim 24
  | .primGetint => .prim 25
  | .primPutint => .prim 26
  | .primReserved27 => .prim 27
  | .primReserved28 => .prim 28

end Sys2Proof
end

