-- ==== Sys2Proof/Machine/State.lean ====
section
/-! DEFINITION. The state of the machine (10_state.md), its reset value, and the reasons a step can stop. State is plain data. -/

namespace Sys2Proof.Machine

/-- The state of the run (10_state.md R20). `unloaded` is the model's mark for a machine no load has succeeded on: it is not Running
(70_reset_and_hazards.md R204), and the spec gives it no code (assumption log 4). -/
inductive Status where
  | running | halted | faulted | unloaded
  deriving DecidableEq, Repr

/-- The error kinds of 60_exceptions.md R172, in the order of their codes. -/
inductive ErrKind where
  /-- Code 0: no fault. -/
  | none
  /-- Code 1: loader stage, the host's file handling; the block never raises it (R182). -/
  | fileNotFound
  /-- Code 2: loader stage, a bad image length; answered by `load` (70_reset_and_hazards.md R201). -/
  | fileLength
  /-- Code 3: loader stage, the host's file handling; the block never raises it (R182). -/
  | fileRead
  /-- Code 4: a fetch, jump or call at or beyond `CT`. -/
  | codeAccessViolation
  /-- Code 5: an explicit access in the free gap. -/
  | dataAccessViolation
  /-- Code 6: a push or a reservation that finds the stack full. -/
  | stackOverflow
  /-- Code 7: a pop with `ST` = 0. -/
  | stackUnderflow
  /-- Code 8: a code word or operand without a meaning (decision D4). -/
  | illegalInstruction
  /-- Code 9: division or remainder by zero (decision D5). -/
  | arithmeticFault
  /-- Code 10: a stream read at the end of input, or input `PARSE_INT` rejects (decision D21). -/
  | ioFault
  deriving DecidableEq, Repr

/-- Why no step is enabled. The machine's own faults (60_exceptions.md R172) are none of these: a fault is taken as a next state whose
STATUS is Faulted (R175; assumption log 6). -/
inductive Fault where
  /-- Raised by `step` when STATUS is Halted: Halted is terminal (60_exceptions.md R177). Safe: the machine does not go on either. -/
  | runHalted
  /-- Raised by `step` when STATUS is Faulted: Faulted is terminal (60_exceptions.md R177). Safe: the machine does not go on either. -/
  | runFaulted
  /-- Raised by `step` before a load has succeeded (70_reset_and_hazards.md R204). Safe: the machine has no run to go on with. -/
  | neverLoaded
  deriving DecidableEq, Repr

/-- Why an instruction has no meaning in the model. -/
inductive Refusal where
  /-- Raised by an arm of `exec` whose instruction is not modelled; no arm is. Safe: nothing is proved of such an instruction. -/
  | notModelled (mnemonic : String)
  deriving DecidableEq, Repr

/-- The 16 registers, each an unsigned 16-bit address or count (10_state.md R10). -/
structure Regs where
  /-- Register 0, code base. -/
  cb : Word
  /-- Register 1, code top. -/
  ct : Word
  /-- Register 2, primitive base. -/
  pb : Word
  /-- Register 3, primitive top. -/
  pt : Word
  /-- Register 4, stack base. -/
  sb : Word
  /-- Register 5, stack top. -/
  st : Word
  /-- Register 6, heap base. -/
  hb : Word
  /-- Register 7, heap top. -/
  ht : Word
  /-- Register 8, current frame base. -/
  lb : Word
  /-- Register 9. -/
  l1 : Word
  /-- Register 10. -/
  l2 : Word
  /-- Register 11. -/
  l3 : Word
  /-- Register 12. -/
  l4 : Word
  /-- Register 13. -/
  l5 : Word
  /-- Register 14. -/
  l6 : Word
  /-- Register 15, the program counter (R14). -/
  cp : Word
  deriving DecidableEq, Repr

/-- The state of the machine: everything 10_state.md gives it. The two stores list (address, word) cells, addresses rising, and an address
that is not listed holds 0, which is what a load leaves there (70_reset_and_hazards.md R200). -/
structure State where
  /-- The 16 registers (R10). -/
  regs : Regs
  /-- The code store, 65536 words of 32 bits (R17). -/
  code : List (Nat × BitVec 32)
  /-- The data store, 65536 words of 16 bits (R18). -/
  data : List (Nat × BitVec 16)
  /-- STATUS (R20). -/
  status : Status
  /-- ERR (R20). -/
  err : ErrKind
  /-- FADDR, a code address (R20). -/
  faddr : Word
  /-- IN, the input bytes not yet consumed (R21). -/
  input : List Byte
  /-- OUT, the output bytes written so far (R21). -/
  output : List Byte
  deriving DecidableEq, Repr

/-- The registers of a machine that holds nothing: all zero (70_reset_and_hazards.md R204). -/
def Regs.zero : Regs :=
  ⟨0, 0, 0, 0, 0, 0, 0, 0, 0, 0, 0, 0, 0, 0, 0, 0⟩

/-- The machine right after reset: what a successful load of the empty image with empty input leaves (70_reset_and_hazards.md R200 with
`L` = 0, 95_test_vectors.md V-Z3). That the image and the input are empty is assumption log 2; FADDR, which reset leaves unspecified, is
assumption log 3. -/
def State.reset : State where
  regs := { Regs.zero with ct := 0, pb := 0, pt := 29, hb := 0xFFFF, ht := 0xFFFF }
  code := []
  data := []
  status := .running
  err := .none
  faddr := 0
  input := []
  output := []

end Sys2Proof.Machine
end

