-- ==== Sys2Proof/Machine/Ops.lean ====
section
/-! DEFINITION. The named operations over registers, stores and streams (00_scope.md R5, 40_fetch_and_stack_primitives.md,
41_load_store.md R90 and R94, 45_primitives_io.md R150), taking a fault (60_exceptions.md R175), fetching, and the load (70_reset_and_hazards.md
R200). -/

namespace Sys2Proof.Machine

/-! ## The stores -/

/-- The word a store holds at an address; one that is not listed holds 0 (70_reset_and_hazards.md R200). -/
def Memory.read {w : Nat} : List (Nat × BitVec w) → Nat → BitVec w
  | [], _ => 0
  | (b, u) :: rest, a => if a = b then u else Memory.read rest a

/-- The store with a cell put in its place, in the order of addresses. -/
def Memory.insert {w : Nat} : List (Nat × BitVec w) → Nat → BitVec w → List (Nat × BitVec w)
  | [], a, v => [(a, v)]
  | (b, u) :: rest, a, v =>
    if a < b then (a, v) :: (b, u) :: rest
    else if a = b then (a, v) :: rest
    else (b, u) :: Memory.insert rest a v

/-- The store with one word written. Writing 0 removes the cell, so that equal stores are equal lists. -/
def Memory.write {w : Nat} (m : List (Nat × BitVec w)) (a : Nat) (v : BitVec w) : List (Nat × BitVec w) :=
  if v = 0 then m.filter (fun cell => cell.1 ≠ a) else Memory.insert m a v

/-- The canonical form from address `lo` on: addresses rising and below 65536, no listed word 0. -/
def Memory.wfFrom {w : Nat} : Nat → List (Nat × BitVec w) → Bool
  | _, [] => true
  | lo, (a, v) :: rest => decide (lo ≤ a ∧ a < 65536 ∧ v ≠ 0) && Memory.wfFrom (a + 1) rest

/-- The canonical form of a store. -/
def Memory.wf {w : Nat} (m : List (Nat × BitVec w)) : Bool := Memory.wfFrom 0 m

/-- The store that holds the given words from address `a` on, and 0 elsewhere. -/
def Memory.ofWords {w : Nat} : Nat → List (BitVec w) → List (Nat × BitVec w)
  | _, [] => []
  | a, v :: vs => if v = 0 then Memory.ofWords (a + 1) vs else (a, v) :: Memory.ofWords (a + 1) vs

/-! ## Registers, and the parts of the state an instruction writes -/

/-- The value of a register. -/
def Regs.get (g : Regs) : Reg → Word
  | .cb => g.cb
  | .ct => g.ct
  | .pb => g.pb
  | .pt => g.pt
  | .sb => g.sb
  | .st => g.st
  | .hb => g.hb
  | .ht => g.ht
  | .lb => g.lb
  | .l1 => g.l1
  | .l2 => g.l2
  | .l3 => g.l3
  | .l4 => g.l4
  | .l5 => g.l5
  | .l6 => g.l6
  | .cp => g.cp

/-- The registers with one written. No register ignores a write (10_state.md R10). -/
def Regs.set (g : Regs) (r : Reg) (v : Word) : Regs :=
  match r with
  | .cb => { g with cb := v }
  | .ct => { g with ct := v }
  | .pb => { g with pb := v }
  | .pt => { g with pt := v }
  | .sb => { g with sb := v }
  | .st => { g with st := v }
  | .hb => { g with hb := v }
  | .ht => { g with ht := v }
  | .lb => { g with lb := v }
  | .l1 => { g with l1 := v }
  | .l2 => { g with l2 := v }
  | .l3 => { g with l3 := v }
  | .l4 => { g with l4 := v }
  | .l5 => { g with l5 := v }
  | .l6 => { g with l6 := v }
  | .cp => { g with cp := v }

/-- `x[r]`, the value of a register (00_scope.md R5). -/
def State.reg (s : State) (r : Reg) : Word := s.regs.get r

/-- `x[r] <- v` (00_scope.md R5). -/
def State.setReg (s : State) (r : Reg) (v : Word) : State := { s with regs := s.regs.set r v }

/-- The data word at an address (`MemRead`, 00_scope.md R5). -/
def State.dataAt (s : State) (a : Word) : Word := Memory.read s.data a.toNat

/-- One data word written (`MemWrite`, 00_scope.md R5). -/
def State.setData (s : State) (a v : Word) : State := { s with data := Memory.write s.data a.toNat v }

/-- The code word at a code address (`CodeRead`, 00_scope.md R5). -/
def State.codeAt (s : State) (a : Word) : CodeWord := Memory.read s.code a.toNat

/-- The input replaced by what is left of it. -/
def State.setInput (s : State) (rest : List Byte) : State := { s with input := rest }

/-- Bytes appended to the output. -/
def State.emit (s : State) (bytes : List Byte) : State := { s with output := s.output ++ bytes }

/-- STATUS becomes Halted (43_control_transfer.md R113). -/
def State.halt (s : State) : State := { s with status := .halted }

/-- The code of STATUS (10_state.md R20); the spec gives none before the first load. -/
def Status.code : Status → Option (BitVec 2)
  | .running => some 0
  | .halted => some 1
  | .faulted => some 2
  | .unloaded => .none

/-- The code of ERR (60_exceptions.md R172). -/
def ErrKind.code : ErrKind → BitVec 4
  | .none => 0
  | .fileNotFound => 1
  | .fileLength => 2
  | .fileRead => 3
  | .codeAccessViolation => 4
  | .dataAccessViolation => 5
  | .stackOverflow => 6
  | .stackUnderflow => 7
  | .illegalInstruction => 8
  | .arithmeticFault => 9
  | .ioFault => 10

/-! ## Sub-steps that may raise -/

/-- A sub-step: it answers a value and the state after it, or raises an error kind with the state at that point. Composing two with `do`
forwards the first raise, with the effects of the sub-steps before it (40_fetch_and_stack_primitives.md R76, 60_exceptions.md R174, R175). -/
abbrev M (α : Type) := EStateM ErrKind State α

/-- `raise K` at this point of the instruction. -/
def raise {α : Type} (k : ErrKind) : M α := fun s => .error k s

/-- A check: raise `k` when `c` holds, else nothing. -/
def raiseIf (k : ErrKind) (c : Prop) [Decidable c] : M Unit := fun s => if c then .error k s else .ok () s

/-- Read something off the state. -/
def look {α : Type} (f : State → α) : M α := fun s => .ok (f s) s

/-- Change the state. -/
def update (f : State → State) : M Unit := fun s => .ok () (f s)

/-- TAKING A FAULT (`raise K`, 60_exceptions.md R175, R176): STATUS becomes Faulted, ERR the kind, FADDR the address of the instruction that
faulted, and nothing else is saved, restored or changed. There is no handler and no return from a fault (R170, R177), so no operation
stands beside this one. -/
def State.takeFault (s : State) (k : ErrKind) (at_ : Word) : State := { s with status := .faulted, err := k, faddr := at_ }

/-- The end of an instruction: what its sub-steps left, and a fault if one raised. The fault address is `CP - 1`, the pre-fetch `CP`: the
fetch advanced `CP` and no sub-step that precedes a raise changes it (60_exceptions.md R176, 40_fetch_and_stack_primitives.md R78). -/
def conclude (x : M Unit) (s : State) : Host.Outcome State Fault Refusal :=
  match x s with
  | .ok _ t => .next t
  | .error k t => .next (t.takeFault k (t.reg .cp - 1))

/-! ## Fetch, stack, addresses (40_fetch_and_stack_primitives.md) -/

/-- `Fetch()`, R70: the code word at `CP`, which is advanced; code-access-violation at or beyond `CT`, with nothing changed. -/
def fetch : M CodeWord := do
  let cp ← look (·.reg .cp)
  let ct ← look (·.reg .ct)
  raiseIf .codeAccessViolation (ct ≤ cp)
  let w ← look (·.codeAt cp)
  update (·.setReg .cp (cp + 1))
  pure w

/-- `PushData(v)`, R71. -/
def pushData (v : Word) : M Unit := do
  let st ← look (·.reg .st)
  let ht ← look (·.reg .ht)
  raiseIf .stackOverflow (ht ≤ st)
  update (·.setData st v)
  update (·.setReg .st (st + 1))

/-- `PopDiscard()`, R79. -/
def popDiscard : M Unit := do
  let st ← look (·.reg .st)
  raiseIf .stackUnderflow (st = 0)
  update (·.setReg .st (st - 1))

/-- `PopData()`, R72: the word popped stays in the data store. -/
def popData : M Word := do
  popDiscard
  let st ← look (·.reg .st)
  look (·.dataAt st)

/-- `CalcAddress(r, d)`, R73: modulo 65536, never a fault. -/
def State.calcAddress (s : State) (r : Reg) (d : Word) : Word := s.reg r + d

/-- `CalcAddress(R, D)` as an instruction's first sub-step (R77). -/
def calcAddress (r : Reg) (d : Word) : M Word := look (·.calcAddress r d)

/-- `CheckDataBounds(a)`, R74: data-access-violation in the free gap `ST` to `HT`, measured now. -/
def checkDataBounds (a : Word) : M Unit := do
  let st ← look (·.reg .st)
  let ht ← look (·.reg .ht)
  raiseIf .dataAccessViolation (st ≤ a ∧ a ≤ ht)

/-- `JumpTo(t)`, 43_control_transfer.md R112. -/
def jumpTo (t : Word) : M Unit := do
  let ct ← look (·.reg .ct)
  raiseIf .codeAccessViolation (ct ≤ t)
  update (·.setReg .cp t)

/-! ## Blocks of words -/

/-- `n` words popped into the transient buffer, first popped first (10_state.md R22). -/
def popWords : Nat → M (List Word)
  | 0 => pure []
  | n + 1 => do
    let v ← popData
    let vs ← popWords n
    pure (v :: vs)

/-- `n` words discarded. -/
def discardWords : Nat → M Unit
  | 0 => pure ()
  | n + 1 => do
    popDiscard
    discardWords n

/-- Words pushed in the order given. -/
def pushWords : List Word → M Unit
  | [] => pure ()
  | v :: vs => do
    pushData v
    pushWords vs

/-- `LoadBlock(a, n)`, 41_load_store.md R90: for each address in turn check, read, push, against the stack top of that moment. -/
def loadBlock : Word → Nat → M Unit
  | _, 0 => pure ()
  | a, n + 1 => do
    checkDataBounds a
    let v ← look (·.dataAt a)
    pushData v
    loadBlock (a + 1) n

/-- Words written to consecutive addresses, each check directly before its write. -/
def storeWords : Word → List Word → M Unit
  | _, [] => pure ()
  | a, v :: vs => do
    checkDataBounds a
    update (·.setData a v)
    storeWords (a + 1) vs

/-- `StoreBlock(a, v)`, 41_load_store.md R94: the buffer is in pop order, so the word popped last goes to the lowest address. -/
def storeBlock (a : Word) (buffer : List Word) : M Unit := storeWords a buffer.reverse

/-! ## The stream port (45_primitives_io.md R150) -/

/-- The line terminator, one line feed (R150). -/
def lineFeed : Byte := 0x0A

/-- `InPeek()`: the first input byte, nothing at the end of input; nothing is consumed. -/
def inPeek : M (Option Byte) := look (·.input.head?)

/-- `InRead()`: the first input byte, consumed; io-fault at the end of input. -/
def inRead : M Byte := fun s =>
  match s.input with
  | [] => .error .ioFault s
  | b :: rest => .ok b (s.setInput rest)

/-- Reads through the next line terminator; `bytes` is the input there is. Where it ends first, the read after its last byte raises
(R155). -/
def readLine : List Byte → M Unit
  | [] => do
    let _ ← inRead
    pure ()
  | _ :: rest => do
    let b ← inRead
    if b = lineFeed then pure () else readLine rest

/-- `OutWrite(b)` for each of the bytes in turn; output never fails. -/
def outWrite (bytes : List Byte) : M Unit := update (·.emit bytes)

/-! ## The load (70_reset_and_hazards.md) -/

/-- A machine that has never been loaded: registers, code words and data words zero, no run (R204). R204 names nothing else: the mark in
STATUS is assumption log 4, FADDR = 0 is assumption log 3, and ERR = none with IN and OUT empty is assumption log 23, each the model's
choice. -/
def State.unloaded : State where
  regs := Regs.zero
  code := []
  data := []
  status := .unloaded
  err := .none
  faddr := 0
  input := []
  output := []

/-- What a successful load of the code words `ws` leaves, given the input the host supplies (R200). FADDR is not among what a load
writes (assumption log 3). -/
def State.loaded (s : State) (ws : List CodeWord) (input : List Byte) : State where
  regs :=
    let l := BitVec.ofNat 16 ws.length
    { Regs.zero with ct := l, hb := 0xFFFF, ht := 0xFFFF, pb := l, pt := l + 29 }
  code := Memory.ofWords 0 ws
  data := []
  status := .running
  err := .none
  faddr := s.faddr
  input := input
  output := []

/-- The load of a program image (R200), or its refusal with file-length and nothing changed (R201, R202): the length is no multiple of 4,
or there are more than 65535 code words. An action of the host, not a step (assumption log 5). -/
def load (image input : List Byte) : M Unit := fun s =>
  match imageWords image with
  | none => .error .fileLength s
  | some ws => if 65535 < ws.length then .error .fileLength s else .ok () (s.loaded ws input)

end Sys2Proof.Machine
end

