-- ==== Sys2Proof/Machine/Operands.lean ====
section
/-! DEFINITION. The operand forms: signed and unsigned readings and narrowing (00_scope.md section 7), stack operands (44_primitives_alu.md
R120, R141), counts, the register number in `N`, and the decimal form of `putint`. The unsigned reading `u(w)` of a word is `w` itself as an
address, the signed reading `s(w)` is `w.toInt` (10_state.md R16). -/

namespace Sys2Proof.Machine

/-- `wrap16(i)`: the word equal to `i` modulo 65536 (00_scope.md section 7). -/
def wrap16 (i : Int) : Word := BitVec.ofInt 16 i

/-- `zext_16(b)` of a byte (45_primitives_io.md R153). -/
def zextByte (b : Byte) : Word := b.zeroExtend 16

/-- The low byte `w[7:0]` of a word (45_primitives_io.md R154). -/
def lowByte (w : Word) : Byte := w.extractLsb' 0 8

/-- The register whose number is in `N`, nothing from 16 on (30_encoding.md R53, R59). -/
def regOfCount (n : BitVec 8) : Option Reg := if n < 16 then some (regMap (n.setWidth 4)) else none

/-- `PopData()` read as a signed integer (44_primitives_alu.md R120). -/
def popSigned : M Int := do
  let w ← popData
  pure w.toInt

/-- `Pop2()`, 44_primitives_alu.md R141: the word popped first is the right operand. -/
def pop2 : M (Int × Int) := do
  let b ← popSigned
  let a ← popSigned
  pure (a, b)

/-- The count in `D` of `PUSH`, `POP` and `RETURN`: illegal-instruction when negative (30_encoding.md R59). -/
def countOf (d : Word) : M Nat := do
  raiseIf .illegalInstruction (d.toInt < 0)
  pure d.toNat

/-- The ASCII byte of a decimal digit. -/
def digitByte (k : Nat) : Byte := BitVec.ofNat 8 (0x30 + k)

/-- The decimal digits of `n`, most significant first, at most `fuel` of them. -/
def decimalDigits : Nat → Nat → List Byte
  | 0, _ => []
  | fuel + 1, n => if n < 10 then [digitByte n] else decimalDigits fuel (n / 10) ++ [digitByte (n % 10)]

/-- `Decimal(i)`, 45_primitives_io.md R158: a minus sign when negative, then the digits of the magnitude. Five digits hold the magnitude of
every data word, at most 32768. -/
def decimal (i : Int) : List Byte :=
  if i < 0 then 0x2D :: decimalDigits 5 i.natAbs else decimalDigits 5 i.natAbs

end Sys2Proof.Machine
end

