-- ==== Sys2Proof/Machine/Flags.lean ====
section
/-! DEFINITION. Truth values. The machine has no flags (10_state.md R19): a comparison delivers its result as a data word, and this file
holds the computation of those words (44_primitives_alu.md R121, R132 to R138). -/

namespace Sys2Proof.Machine

/-- The word for a truth value: 1 for true, 0 for false (44_primitives_alu.md R121). -/
def truthWord (t : Bool) : Word := if t then 1 else 0

/-- The comparison `ge` and `gt` share (44_primitives_alu.md R134, R135): greater when the operands differ, the open parameter when they
are equal. -/
def geGt (a b : Int) : Bool := if a = b then Config.geGtEq else decide (b < a)

/-- `BlockCompare()`, 44_primitives_alu.md R138: a length, then two blocks of that many words. -/
def blockCompare : M Bool := do
  let k ← popData
  raiseIf .illegalInstruction (k.toInt < 0)
  let q ← popWords k.toNat
  let p ← popWords k.toNat
  pure (decide (p = q))

end Sys2Proof.Machine
end

