-- ==== Sys2Proof/Machine/Alu.lean ====
section
/-! DEFINITION. The primitive routines of the ALU, identifiers 1 to 18 (44_primitives_alu.md). A result outside the word is wrapped
(R142), no routine detects overflow, and every pop comes before the push (R120). -/

namespace Sys2Proof.Machine

/-- A routine of one operand: the result of `f` on its signed reading is pushed (R120). -/
def unaryRoutine (f : Int → Word) : M Unit := do
  let a ← popSigned
  pushData (f a)

/-- A routine of two operands: the result of `f` on their signed readings is pushed (R141). -/
def binaryRoutine (f : Int → Int → Word) : M Unit := do
  let (a, b) ← pop2
  pushData (f a b)

/-- A routine that divides: arithmetic-fault when the divisor is 0, with both operands popped and nothing pushed (R139, R140). -/
def dividingRoutine (f : Int → Int → Word) : M Unit := do
  let (a, b) ← pop2
  raiseIf .arithmeticFault (b = 0)
  pushData (f a b)

/-- `id`, R122: nothing. -/
def execPrimId (s : State) : Host.Outcome State Fault Refusal :=
  conclude (pure ()) s

/-- `not`, R123: whether the operand is zero. -/
def execPrimNot (s : State) : Host.Outcome State Fault Refusal :=
  conclude (unaryRoutine fun a => truthWord (decide (a = 0))) s

/-- `and`, R124: the product. -/
def execPrimAnd (s : State) : Host.Outcome State Fault Refusal :=
  conclude (binaryRoutine fun a b => wrap16 (a * b)) s

/-- `or`, R125: the sum. -/
def execPrimOr (s : State) : Host.Outcome State Fault Refusal :=
  conclude (binaryRoutine fun a b => wrap16 (a + b)) s

/-- `succ`, R126. -/
def execPrimSucc (s : State) : Host.Outcome State Fault Refusal :=
  conclude (unaryRoutine fun a => wrap16 (a + 1)) s

/-- `pred`, R127. -/
def execPrimPred (s : State) : Host.Outcome State Fault Refusal :=
  conclude (unaryRoutine fun a => wrap16 (a - 1)) s

/-- `neg`, R128. -/
def execPrimNeg (s : State) : Host.Outcome State Fault Refusal :=
  conclude (unaryRoutine fun a => wrap16 (-a)) s

/-- `add`, R129. -/
def execPrimAdd (s : State) : Host.Outcome State Fault Refusal :=
  conclude (binaryRoutine fun a b => wrap16 (a + b)) s

/-- `sub`, R130. -/
def execPrimSub (s : State) : Host.Outcome State Fault Refusal :=
  conclude (binaryRoutine fun a b => wrap16 (a - b)) s

/-- `mult`, R131. -/
def execPrimMult (s : State) : Host.Outcome State Fault Refusal :=
  conclude (binaryRoutine fun a b => wrap16 (a * b)) s

/-- `div`, R139: the quotient truncated toward zero. -/
def execPrimDiv (s : State) : Host.Outcome State Fault Refusal :=
  conclude (dividingRoutine fun a b => wrap16 (a.tdiv b)) s

/-- `mod`, R140: the remainder `a - (a div b) * b`. -/
def execPrimMod (s : State) : Host.Outcome State Fault Refusal :=
  conclude (dividingRoutine fun a b => wrap16 (a - a.tdiv b * b)) s

/-- `lt`, R132. -/
def execPrimLt (s : State) : Host.Outcome State Fault Refusal :=
  conclude (binaryRoutine fun a b => truthWord (decide (a < b))) s

/-- `le`, R133. -/
def execPrimLe (s : State) : Host.Outcome State Fault Refusal :=
  conclude (binaryRoutine fun a b => truthWord (decide (a ≤ b))) s

/-- `ge`, R134. -/
def execPrimGe (s : State) : Host.Outcome State Fault Refusal :=
  conclude (binaryRoutine fun a b => truthWord (geGt a b)) s

/-- `gt`, R135: the same function as `ge`. -/
def execPrimGt (s : State) : Host.Outcome State Fault Refusal :=
  conclude (binaryRoutine fun a b => truthWord (geGt a b)) s

/-- `eq`, R136: whether two blocks are equal word for word. -/
def execPrimEq (s : State) : Host.Outcome State Fault Refusal :=
  conclude (do
    let e ← blockCompare
    pushData (truthWord e)) s

/-- `neq`, R137: whether two blocks differ. -/
def execPrimNeq (s : State) : Host.Outcome State Fault Refusal :=
  conclude (do
    let e ← blockCompare
    pushData (truthWord (!e))) s

end Sys2Proof.Machine
end

