-- ==== Sys2Proof/Machine/Streams.lean ====
section
/-! DEFINITION. The primitive routines of the stream port, identifiers 19 to 26, and the reserved identifiers 27 and 28
(45_primitives_io.md). -/

namespace Sys2Proof.Machine

/-- `eol`, R151: whether the next input byte is the line terminator; nothing is consumed. -/
def execPrimEol (s : State) : Host.Outcome State Fault Refusal :=
  conclude (do
    let c ← inPeek
    pushData (truthWord (decide (c = some lineFeed)))) s

/-- `eof`, R152: whether the input is exhausted. -/
def execPrimEof (s : State) : Host.Outcome State Fault Refusal :=
  conclude (do
    let c ← inPeek
    pushData (truthWord (decide (c = none)))) s

/-- `get`, R153: pop an address, check it, read a byte, store it zero-extended. -/
def execPrimGet (s : State) : Host.Outcome State Fault Refusal :=
  conclude (do
    let a ← popData
    checkDataBounds a
    let b ← inRead
    update (·.setData a (zextByte b))) s

/-- `put`, R154: the low byte of the operand is written. -/
def execPrimPut (s : State) : Host.Outcome State Fault Refusal :=
  conclude (do
    let w ← popData
    outWrite [lowByte w]) s

/-- `geteol`, R155: input is consumed through the next line terminator. -/
def execPrimGeteol (s : State) : Host.Outcome State Fault Refusal :=
  conclude (do
    let bytes ← look (·.input)
    readLine bytes) s

/-- `puteol`, R156. -/
def execPrimPuteol (s : State) : Host.Outcome State Fault Refusal :=
  conclude (outWrite [lineFeed]) s

/-- `PARSE_INT(IN)` with its effect on the input: io-fault where it rejects, else the integer, and what it consumed is gone (R157). -/
def parseInput : M Int := fun s =>
  match Config.parseInt s.input with
  | none => .error .ioFault s
  | some (i, consumed) => .ok i (s.setInput (s.input.drop consumed))

/-- `getint`, R157: pop an address, check it, parse an integer, store it. -/
def execPrimGetint (s : State) : Host.Outcome State Fault Refusal :=
  conclude (do
    let a ← popData
    checkDataBounds a
    let i ← parseInput
    update (·.setData a (wrap16 i))) s

/-- `putint`, R158: the signed decimal form of the operand is written. -/
def execPrimPutint (s : State) : Host.Outcome State Fault Refusal :=
  conclude (do
    let i ← popSigned
    outWrite (decimal i)) s

/-- Identifier 27, R159: illegal-instruction. -/
def execPrimReserved27 (s : State) : Host.Outcome State Fault Refusal :=
  conclude (raise .illegalInstruction) s

/-- Identifier 28, R159: illegal-instruction. -/
def execPrimReserved28 (s : State) : Host.Outcome State Fault Refusal :=
  conclude (raise .illegalInstruction) s

end Sys2Proof.Machine
end

