-- ==== Sys2Proof/Machine/Control.lean ====
section
/-! DEFINITION. The control transfer instructions (43_control_transfer.md). -/

namespace Sys2Proof.Machine

/-- `Primitive(d)`, 44_primitives_alu.md R120 and 45_primitives_io.md R159: the routine 30_encoding.md R58 gives an identifier. No
`CALL` sends an identifier outside 1 to 28 here (R105); such a one names no routine. -/
def primitive (ident : Nat) (s : State) : Host.Outcome State Fault Refusal :=
  match ident with
  | 1 => execPrimId s
  | 2 => execPrimNot s
  | 3 => execPrimAnd s
  | 4 => execPrimOr s
  | 5 => execPrimSucc s
  | 6 => execPrimPred s
  | 7 => execPrimNeg s
  | 8 => execPrimAdd s
  | 9 => execPrimSub s
  | 10 => execPrimMult s
  | 11 => execPrimDiv s
  | 12 => execPrimMod s
  | 13 => execPrimLt s
  | 14 => execPrimLe s
  | 15 => execPrimGe s
  | 16 => execPrimGt s
  | 17 => execPrimEq s
  | 18 => execPrimNeq s
  | 19 => execPrimEol s
  | 20 => execPrimEof s
  | 21 => execPrimGet s
  | 22 => execPrimPut s
  | 23 => execPrimGeteol s
  | 24 => execPrimPuteol s
  | 25 => execPrimGetint s
  | 26 => execPrimPutint s
  | 27 => execPrimReserved27 s
  | 28 => execPrimReserved28 s
  | _ => conclude (raise .illegalInstruction) s

/-- The static link `x[N]` of a `CALL`; illegal-instruction when `N` is no register number (R106). -/
def staticLink (n : BitVec 8) : M Word :=
  match regOfCount n with
  | some r => look (·.reg r)
  | none => raise .illegalInstruction

/-- The frame path of `CALL`, R106: the target check, the register number, the static link read before the three pushes. -/
def callFrame (r : Reg) (n : BitVec 8) (d : Word) : M Unit := do
  let t ← calcAddress r d
  let ct ← look (·.reg .ct)
  raiseIf .codeAccessViolation (ct ≤ t)
  let sl ← staticLink n
  pushData sl
  let lb ← look (·.reg .lb)
  pushData lb
  let cp ← look (·.reg .cp)
  pushData cp
  let st ← look (·.reg .st)
  update (·.setReg .lb (st - 3))
  update (·.setReg .cp t)

/-- `CALL(N) D[R]`, R105: the primitive path, or the frame path. A decoded primitive has a constructor of its own, so the first branch is
taken by terms the decoder does not make (assumption log 20). -/
def execCall (r : Reg) (n : BitVec 8) (d : Word) (s : State) : Host.Outcome State Fault Refusal :=
  if selectsPrimitive r d then primitive d.toNat s else conclude (callFrame r n d) s

/-- `RETURN(N) D`, R108: the two links are read directly, with no check. -/
def execRet (n : BitVec 8) (d : Word) (s : State) : Host.Outcome State Fault Refusal :=
  conclude (do
    let count ← countOf d
    let v ← popWords n.toNat
    let lb ← look (·.reg .lb)
    let ra ← look (·.dataAt (lb + 2))
    let dl ← look (·.dataAt (lb + 1))
    update (·.setReg .st lb)
    discardWords count
    pushWords v.reverse
    update (·.setReg .lb dl)
    update (·.setReg .cp ra)) s

/-- `JUMP D[R]`, R109. -/
def execJump (r : Reg) (d : Word) (s : State) : Host.Outcome State Fault Refusal :=
  conclude (do
    let t ← calcAddress r d
    jumpTo t) s

/-- `JUMPI`, R110. -/
def execJumpi (s : State) : Host.Outcome State Fault Refusal :=
  conclude (do
    let t ← popData
    jumpTo t) s

/-- `JUMPIF(N) D[R]`, R111: the word is popped, taken or not; the target is checked only when the jump is taken. -/
def execJumpif (r : Reg) (n : BitVec 8) (d : Word) (s : State) : Host.Outcome State Fault Refusal :=
  conclude (do
    let t ← calcAddress r d
    let i ← popSigned
    if i = n.toNat then jumpTo t else pure ()) s

/-- `HALT`, R113: STATUS becomes Halted and nothing else changes (assumption log 8). -/
def execHalt (s : State) : Host.Outcome State Fault Refusal :=
  conclude (update State.halt) s

/-- The opcode value 6, R114: illegal-instruction. -/
def execReserved6 (s : State) : Host.Outcome State Fault Refusal :=
  conclude (raise .illegalInstruction) s

/-- The opcode value 7, R114: illegal-instruction. -/
def execReserved7 (s : State) : Host.Outcome State Fault Refusal :=
  conclude (raise .illegalInstruction) s

end Sys2Proof.Machine
end

