-- ==== Sys2Proof/Machine/LoadStore.lean ====
section
/-! DEFINITION. The load and store instructions (41_load_store.md). -/

namespace Sys2Proof.Machine

/-- `LOAD(N) D[R]`, R91. -/
def execLoad (r : Reg) (n : BitVec 8) (d : Word) (s : State) : Host.Outcome State Fault Refusal :=
  conclude (do
    let a ← calcAddress r d
    loadBlock a n.toNat) s

/-- `LOADA D[R]`, R92: the address itself, unchecked. -/
def execLoada (r : Reg) (d : Word) (s : State) : Host.Outcome State Fault Refusal :=
  conclude (do
    let a ← calcAddress r d
    pushData a) s

/-- `LOADI(N)`, R93. -/
def execLoadi (n : BitVec 8) (s : State) : Host.Outcome State Fault Refusal :=
  conclude (do
    let a ← popData
    loadBlock a n.toNat) s

/-- `LOADL D`, R95. -/
def execLoadl (d : Word) (s : State) : Host.Outcome State Fault Refusal :=
  conclude (pushData d) s

/-- `STORE(N) D[R]`, R96: the address before the pops, all pops before any write. -/
def execStore (r : Reg) (n : BitVec 8) (d : Word) (s : State) : Host.Outcome State Fault Refusal :=
  conclude (do
    let a ← calcAddress r d
    let v ← popWords n.toNat
    storeBlock a v) s

/-- `STOREI(N)`, R97: the address lies under the values. -/
def execStorei (n : BitVec 8) (s : State) : Host.Outcome State Fault Refusal :=
  conclude (do
    let v ← popWords n.toNat
    let a ← popData
    storeBlock a v) s

end Sys2Proof.Machine
end

