-- ==== Sys2Proof/Machine/StackAdjust.lean ====
section
/-! DEFINITION. The stack adjustment instructions (42_stack_adjust.md). -/

namespace Sys2Proof.Machine

/-- `PUSH D`, R100: the sum is compared as an unbounded integer, and no data word is touched. -/
def execPush (d : Word) (s : State) : Host.Outcome State Fault Refusal :=
  conclude (do
    let count ← countOf d
    let st ← look (·.reg .st)
    let ht ← look (·.reg .ht)
    raiseIf .stackOverflow (ht.toNat ≤ st.toNat + count)
    update (·.setReg .st (BitVec.ofNat 16 (st.toNat + count)))) s

/-- `POP(N) D`, R101: keep the top `N` words and remove the `D` beneath them. -/
def execPop (n : BitVec 8) (d : Word) (s : State) : Host.Outcome State Fault Refusal :=
  conclude (do
    let count ← countOf d
    let v ← popWords n.toNat
    discardWords count
    pushWords v.reverse) s

end Sys2Proof.Machine
end

