-- ==== Sys2Proof/Machine/Dispatch.lean ====
section
/-! DEFINITION. `exec`: one arm per instruction (40_fetch_and_stack_primitives.md R76). It runs on the state AFTER the fetch, in which `CP` is
the instruction's own address plus 1 (10_state.md R14). -/

namespace Sys2Proof.Machine

def exec (i : Instr) (s : State) : Host.Outcome State Fault Refusal :=
  match i with
  | .load r n d => Sys2Proof.Machine.execLoad r n d s
  | .loada r d => Sys2Proof.Machine.execLoada r d s
  | .loadi n => Sys2Proof.Machine.execLoadi n s
  | .loadl d => Sys2Proof.Machine.execLoadl d s
  | .store r n d => Sys2Proof.Machine.execStore r n d s
  | .storei n => Sys2Proof.Machine.execStorei n s
  | .reserved6 => Sys2Proof.Machine.execReserved6 s
  | .reserved7 => Sys2Proof.Machine.execReserved7 s
  | .call r n d => Sys2Proof.Machine.execCall r n d s
  | .ret n d => Sys2Proof.Machine.execRet n d s
  | .push d => Sys2Proof.Machine.execPush d s
  | .pop n d => Sys2Proof.Machine.execPop n d s
  | .jump r d => Sys2Proof.Machine.execJump r d s
  | .jumpi => Sys2Proof.Machine.execJumpi s
  | .jumpif r n d => Sys2Proof.Machine.execJumpif r n d s
  | .halt => Sys2Proof.Machine.execHalt s
  | .primId => Sys2Proof.Machine.execPrimId s
  | .primNot => Sys2Proof.Machine.execPrimNot s
  | .primAnd => Sys2Proof.Machine.execPrimAnd s
  | .primOr => Sys2Proof.Machine.execPrimOr s
  | .primSucc => Sys2Proof.Machine.execPrimSucc s
  | .primPred => Sys2Proof.Machine.execPrimPred s
  | .primNeg => Sys2Proof.Machine.execPrimNeg s
  | .primAdd => Sys2Proof.Machine.execPrimAdd s
  | .primSub => Sys2Proof.Machine.execPrimSub s
  | .primMult => Sys2Proof.Machine.execPrimMult s
  | .primDiv => Sys2Proof.Machine.execPrimDiv s
  | .primMod => Sys2Proof.Machine.execPrimMod s
  | .primLt => Sys2Proof.Machine.execPrimLt s
  | .primLe => Sys2Proof.Machine.execPrimLe s
  | .primGe => Sys2Proof.Machine.execPrimGe s
  | .primGt => Sys2Proof.Machine.execPrimGt s
  | .primEq => Sys2Proof.Machine.execPrimEq s
  | .primNeq => Sys2Proof.Machine.execPrimNeq s
  | .primEol => Sys2Proof.Machine.execPrimEol s
  | .primEof => Sys2Proof.Machine.execPrimEof s
  | .primGet => Sys2Proof.Machine.execPrimGet s
  | .primPut => Sys2Proof.Machine.execPrimPut s
  | .primGeteol => Sys2Proof.Machine.execPrimGeteol s
  | .primPuteol => Sys2Proof.Machine.execPrimPuteol s
  | .primGetint => Sys2Proof.Machine.execPrimGetint s
  | .primPutint => Sys2Proof.Machine.execPrimPutint s
  | .primReserved27 => Sys2Proof.Machine.execPrimReserved27 s
  | .primReserved28 => Sys2Proof.Machine.execPrimReserved28 s

end Sys2Proof.Machine
end

