-- ==== Sys2Proof/Machine/Step.lean ====
section
/-! DEFINITION. One step of the machine (40_fetch_and_stack_primitives.md R75), and placing an instruction where the next step fetches. -/

namespace Sys2Proof.Machine

/-- `Step()`, R75: enabled only while STATUS is Running; fetch, then run the decoded instruction. A fetch that faults is reported at the
pre-fetch `CP`, the address it was attempted at (60_exceptions.md R176). -/
def step (s : State) : Host.Outcome State Fault Refusal :=
  match s.status with
  | .halted => .fault .runHalted
  | .faulted => .fault .runFaulted
  | .unloaded => .fault .neverLoaded
  | .running =>
    match fetch s with
    | .error k t => .next (t.takeFault k (s.reg .cp))
    | .ok w t => exec (decode w) t

/-- `s` with the instruction whose bits are `w` (those from `nbits` on are 0) as the code word at `CP`, and what fetching it takes: STATUS
Running, and, where `CP` is not below `CT`, a program that reaches just past it: `CT` = `CP + 1` with `PB` and `PT` as a load sets them.
At `CP` = 65535, which no `CT` admits, the word goes to address 0 and `CP` with it. It stands for the load of a program (assumption log 5). -/
def State.withFetchWord (s : State) (nbits w : Nat) : State :=
  let at_ : Word := if s.reg .cp = 0xFFFF then 0 else s.reg .cp
  let ct : Word := if at_ < s.reg .ct then s.reg .ct else at_ + 1
  let grown : Regs :=
    if at_ < s.reg .ct then { s.regs with cp := at_ } else { s.regs with cp := at_, ct := ct, pb := ct, pt := ct + 29 }
  { s with regs := grown, code := Memory.write s.code at_.toNat (BitVec.ofNat 32 (w % 2 ^ nbits)), status := .running }

end Sys2Proof.Machine
end

