-- ==== Sys2Proof/Safety.lean ====
section
/-! DEFINITION. What counts as a safe run, and the vocabulary of the statements: the invariant of the machine, the end of a run, which fault an
instruction can raise, which registers and which data addresses it writes. -/

namespace Sys2Proof.Machine

/-! ## The invariant (10_state.md R12, R15; 60_exceptions.md R175, R177) -/

/-- The heap top is pinned at 65535 (10_state.md R12, R18). -/
abbrev State.HeapPinned (s : State) : Prop := s.reg .ht = 0xFFFF

/-- The registers no instruction writes hold what a load gave them (10_state.md R10, R12, R15 items 2 and 3). -/
abbrev State.Launched (s : State) : Prop :=
  s.reg .cb = 0 ∧ s.reg .pb = s.reg .ct ∧ s.reg .pt = s.reg .pb + 29 ∧ s.reg .sb = 0 ∧ s.reg .hb = 0xFFFF ∧ s.HeapPinned ∧
  s.reg .l1 = 0 ∧ s.reg .l2 = 0 ∧ s.reg .l3 = 0 ∧ s.reg .l4 = 0 ∧ s.reg .l5 = 0 ∧ s.reg .l6 = 0

/-- ERR is none until a fault is taken: a load clears it (70_reset_and_hazards.md R200), and the fault that sets it ends the run
(60_exceptions.md R175, R177). -/
abbrev State.ErrClear (s : State) : Prop := s.status ≠ .faulted → s.err = .none

/-- The invariant of the machine: the launch values stand, ERR is none until a fault, and both stores are in canonical form. -/
abbrev State.Inv (s : State) : Prop :=
  s.Launched ∧ s.ErrClear ∧ Memory.wf s.code = true ∧ Memory.wf s.data = true

/-! ## The end of a run (60_exceptions.md R186) -/

/-- A run has ended when STATUS is Halted or Faulted. -/
abbrev State.Ended (s : State) : Prop := s.status = .halted ∨ s.status = .faulted

/-- It ended well when STATUS is Halted. -/
abbrev State.EndedWell (s : State) : Prop := s.status = .halted

/-! ## The stack, read -/

/-- `ST` as a number: how many words the stack holds. -/
def State.top (s : State) : Nat := (s.reg .st).toNat

/-- The data word `k` below the top of the stack; `s.below 0` is the top word, at `ST - 1`. -/
def State.below (s : State) (k : Nat) : Word := s.dataAt (s.reg .st - BitVec.ofNat 16 (k + 1))

/-- An address of a block of `n` words from `base` on, modulo 65536. -/
abbrev InBlock (base : Word) (n : Nat) (a : Word) : Prop := ∃ k < n, a = base + BitVec.ofNat 16 k

/-! ## Frames -/

/-- Everything but the listed registers and the data words at `touched` addresses is the same in `t` as in `s`. -/
def Frame (regs : List Reg) (touched : Word → Prop) (s t : State) : Prop :=
  (∀ r, r ∉ regs → t.reg r = s.reg r) ∧ (∀ a, ¬ touched a → t.dataAt a = s.dataAt a) ∧ t.code = s.code

/-- The status registers are the same. -/
def SameReport (s t : State) : Prop := t.status = s.status ∧ t.err = s.err ∧ t.faddr = s.faddr

/-- The streams are the same. -/
def SameStreams (s t : State) : Prop := t.input = s.input ∧ t.output = s.output

/-- Neither the status registers nor the streams change. -/
def Quiet (s t : State) : Prop := SameReport s t ∧ SameStreams s t

/-- `t` is `s` with `pops` words taken off the stack and the word `w` pushed in their place, and nothing else changed. -/
def Delivers (s t : State) (pops : Nat) (w : Word) : Prop :=
  t.reg .st = s.reg .st - BitVec.ofNat 16 pops + 1 ∧ t.dataAt (s.reg .st - BitVec.ofNat 16 pops) = w ∧
  Frame [.st] (fun a => a = s.reg .st - BitVec.ofNat 16 pops) s t ∧ Quiet s t

/-- The registers an instruction may write, on any path (10_state.md R10). -/
def writtenRegs : Instr → List Reg
  | .load .. | .loada .. | .loadi _ | .loadl _ | .store .. | .storei _ | .push _ | .pop .. => [.st]
  | .call .. => [.st, .lb, .cp]
  | .ret .. => [.st, .lb, .cp]
  | .jump .. => [.cp]
  | .jumpi | .jumpif .. => [.st, .cp]
  | .halt | .reserved6 | .reserved7 => []
  | .primId | .primGeteol | .primPuteol | .primReserved27 | .primReserved28 => []
  | .primNot | .primAnd | .primOr | .primSucc | .primPred | .primNeg | .primAdd | .primSub | .primMult | .primDiv | .primMod | .primLt
  | .primLe | .primGe | .primGt | .primEq | .primNeq => [.st]
  | .primEol | .primEof | .primGet | .primPut | .primGetint | .primPutint => [.st]

/-- The data addresses an instruction may store to, on any path, from the state it runs on. The block of `RETURN` starts `D` words below
the frame base, that of `POP` `N + D` words below the stack top. -/
def storesTo (i : Instr) (s : State) (a : Word) : Prop :=
  match i with
  | .load _ n _ => InBlock (s.reg .st) n.toNat a
  | .loada .. | .loadl _ => a = s.reg .st
  | .loadi n => InBlock (s.reg .st - 1) n.toNat a
  | .store r n d => InBlock (s.calcAddress r d) n.toNat a
  | .storei n => InBlock (s.below n.toNat) n.toNat a
  | .call .. => InBlock (s.reg .st) 3 a
  | .ret n d => InBlock (s.reg .lb - d) n.toNat a
  | .pop n d => InBlock (s.reg .st - BitVec.ofNat 16 n.toNat - d) n.toNat a
  | .push _ | .jump .. | .jumpi | .jumpif .. | .halt | .reserved6 | .reserved7 => False
  | .primId | .primPut | .primGeteol | .primPuteol | .primPutint | .primReserved27 | .primReserved28 => False
  | .primNot | .primSucc | .primPred | .primNeg => a = s.reg .st - 1
  | .primAnd | .primOr | .primAdd | .primSub | .primMult | .primDiv | .primMod | .primLt | .primLe | .primGe | .primGt =>
    a = s.reg .st - 2
  | .primEq | .primNeq => a = s.reg .st - 1 - (s.below 0 + s.below 0)
  | .primEol | .primEof => a = s.reg .st
  | .primGet | .primGetint => a = s.below 0

/-! ## Faults (60_exceptions.md R173) -/

/-- `s` with the fault `k` of the instruction running on it taken: the fault address is `CP - 1` (60_exceptions.md R175, R176). -/
def State.faulted (s : State) (k : ErrKind) : State := s.takeFault k (s.reg .cp - 1)

/-- The error kinds an instruction itself can raise: the table of R173. -/
def mayRaise : Instr → List ErrKind
  | .load .. => [.dataAccessViolation, .stackOverflow]
  | .loada .. | .loadl _ => [.stackOverflow]
  | .loadi _ => [.dataAccessViolation, .stackOverflow, .stackUnderflow]
  | .store .. | .storei _ => [.dataAccessViolation, .stackUnderflow]
  | .reserved6 | .reserved7 | .primReserved27 | .primReserved28 => [.illegalInstruction]
  | .call .. => [.codeAccessViolation, .stackOverflow, .illegalInstruction]
  | .ret .. => [.stackOverflow, .stackUnderflow, .illegalInstruction]
  | .push _ => [.stackOverflow, .illegalInstruction]
  | .pop .. => [.stackUnderflow, .illegalInstruction]
  | .jump .. => [.codeAccessViolation]
  | .jumpi | .jumpif .. => [.codeAccessViolation, .stackUnderflow]
  | .halt | .primId | .primPuteol => []
  | .primNot | .primAnd | .primOr | .primSucc | .primPred | .primNeg | .primAdd | .primSub | .primMult | .primLt | .primLe | .primGe
  | .primGt => [.stackUnderflow]
  | .primDiv | .primMod => [.stackUnderflow, .arithmeticFault]
  | .primEq | .primNeq => [.stackUnderflow, .illegalInstruction]
  | .primEol | .primEof => [.stackOverflow]
  | .primGet | .primGetint => [.dataAccessViolation, .stackUnderflow, .ioFault]
  | .primPut | .primPutint => [.stackUnderflow]
  | .primGeteol => [.ioFault]

end Sys2Proof.Machine
end

