-- ==== Sys2Proof/Certificates/Slice0/Obligations.lean ====
section
/-! DEFINITION. The statements for the provers. Each docstring cites the rules of spec/ it rests on, and names the spec's own decision
or the assumption log entry where it rests on one. `exec` runs on the state after the fetch, in which `CP` is the instruction's address plus 1. -/

open Sys2Proof Sys2Proof.Machine

/-- The worked encodings of 30_encoding.md section 9. The numbers rest on the spec's own decisions D1 to D3 (assumption log 11). -/
def Obligations.DecodeReadsSpecWords : Prop :=
  decode 0x80010005 = .call .cb 1 5 ∧ decode 0x30000005 = .loadl 5 ∧ decode 0x3000FFFF = .loadl (-1) ∧
  decode 0x0801FFFF = .load .lb 1 (-1) ∧ decode 0x44020003 = .store .sb 2 3 ∧ decode 0x80040004 = .call .cb 4 4 ∧
  decode 0x82000008 = .primAdd ∧ decode 0x90010001 = .ret 1 1 ∧ decode 0xA0000003 = .push 3 ∧ decode 0xB0010002 = .pop 1 2 ∧
  decode 0xC0000001 = .jump .cb 1 ∧ decode 0xD0000000 = .jumpi ∧ decode 0xE0000008 = .jumpif .cb 0 8 ∧ decode 0xF0000000 = .halt

/-- Decode and encode agree on every well-formed instruction (30_encoding.md R51, R55, R58, with the spec's decisions D1 to D3, assumption log 11). -/
def Obligations.EncodedInstructionDecodesToItself : Prop :=
  ∀ i : Instr, i.wf = true → decode (encode i) = i

/-- 30_encoding.md R56; that an unread field is ignored is the spec's decision D22 (R54, assumption log 12). That the reserved values 6 and 7 look at no field is 43_control_transfer.md R114, by its decision D4 (assumption log 13). -/
def Obligations.DecodeIgnoresUnreadFields : Prop :=
  ∀ w v : CodeWord, opField w = opField v →
    (match opMap (opField w) with
      | .loadi | .storei => nField w = nField v
      | .loadl | .push => dField w = dField v
      | .loada | .jump => rField w = rField v ∧ dField w = dField v
      | .ret | .pop => nField w = nField v ∧ dField w = dField v
      | .load | .store | .jumpif => rField w = rField v ∧ nField w = nField v ∧ dField w = dField v
      | .call =>
        rField w = rField v ∧ dField w = dField v ∧
          (selectsPrimitive (regMap (rField w)) (dField w) = true ∨ nField w = nField v)
      | .jumpi | .halt | .reserved6 | .reserved7 => True) →
    decode w = decode v ∧ ∀ s, exec (decode w) s = exec (decode v) s

/-- 30_encoding.md R57 and R58, with the numbers of the spec's decisions D1 to D3 (assumption log 11). -/
def Obligations.PrimitivesSelectedByFields : Prop :=
  (∀ w : CodeWord,
    (∃ k, rowOf (decode w) = .prim k) ↔
      (opMap (opField w) = .call ∧ regMap (rField w) = .pb ∧ 1 ≤ (dField w).toInt ∧ (dField w).toInt ≤ 28)) ∧
  (∀ (w : CodeWord) (k : Nat), rowOf (decode w) = .prim k → k = (dField w).toNat) ∧
  (∀ (n : BitVec 8) (k : Nat), 1 ≤ k → k ≤ 28 → rowOf (decode ((0x82 : Byte) ++ n ++ BitVec.ofNat 16 k)) = .prim k)

/-- 30_encoding.md R54 and R63 (marked derived there): the opcode table is total and agrees with the decoder. The rows are those of spec/opcode_table.json, with the numbers of the spec's decisions D1 to D3 (assumption log 11), the fields they leave open those of D22 (assumption log 12), the reserved rows those of D4 (assumption log 13). -/
def Obligations.OpcodeTableIsTotal : Prop :=
  ∀ w : CodeWord, (decode w).wf = true ∧
    ∃ row ∈ opcodeRows ++ primitiveRows, row.name = rowOf (decode w) ∧ rowMatches row w = true ∧
      ∀ other ∈ opcodeRows ++ primitiveRows, rowMatches other w = true → other = row ∨ other.priority < row.priority

/-- 40_fetch_and_stack_primitives.md R70, R75 and R76. That the step of a HALT is `exec .halt` is the model's choice, assumption log 8 (DEDUCED): R75, R76 and 43_control_transfer.md R113 recognise HALT in the run loop, before the dispatcher, with the same effect. -/
def Obligations.StepRunsDecodedInstruction : Prop :=
  ∀ s : State, s.status = .running → s.reg .cp < s.reg .ct →
    step s = exec (decode (s.codeAt (s.reg .cp))) (s.setReg .cp (s.reg .cp + 1))

/-- 40_fetch_and_stack_primitives.md R70; that CP is unchanged and reported is the spec's decision D15 (assumption log 16). -/
def Obligations.FetchAtCodeTopFaults : Prop :=
  ∀ s : State, s.status = .running → s.reg .ct ≤ s.reg .cp →
    ∃ t, step s = .next t ∧ t.status = .faulted ∧ t.err = .codeAccessViolation ∧ t.faddr = s.reg .cp ∧ t.regs = s.regs ∧
      t.code = s.code ∧ t.data = s.data ∧ SameStreams s t

/-- 60_exceptions.md R177. That a step which is not enabled answers runHalted or runFaulted is the model's choice, assumption log 7 (DEDUCED). STATUS Running and ERR none after a load are 70_reset_and_hazards.md R200, by the spec's decision D17. -/
def Obligations.EndedRunTakesNoStep : Prop :=
  (∀ s : State, s.status = .halted → step s = .fault .runHalted) ∧ (∀ s : State, s.status = .faulted → step s = .fault .runFaulted) ∧
  (∀ s : State, s.Ended → ∀ t, step s ≠ .next t) ∧
  (∀ (s t : State) (image input : List Byte), s.Ended → load image input s = .ok () t → t.status = .running ∧ t.err = .none)

/-- 70_reset_and_hazards.md R200, with the byte order of 20_memory.md R31; the lines for STATUS, ERR, IN and OUT are the spec's decision D17, the bound 65535 its D19 (assumption log 18). -/
def Obligations.LoadEstablishesResetState : Prop :=
  ∀ (s : State) (image input : List Byte) (l : Nat), image.length = 4 * l → l ≤ 65535 →
    ∃ t, load image input s = .ok () t ∧
      (∀ a : Word, (t.codeAt a).toNat =
        if a.toNat < l then
          (image.getD (4 * a.toNat) 0).toNat * 2 ^ 24 + (image.getD (4 * a.toNat + 1) 0).toNat * 2 ^ 16 +
            (image.getD (4 * a.toNat + 2) 0).toNat * 2 ^ 8 + (image.getD (4 * a.toNat + 3) 0).toNat
        else 0) ∧
      (∀ a : Word, t.dataAt a = 0) ∧
      (t.reg .ct).toNat = l ∧ t.reg .pb = t.reg .ct ∧ (t.reg .pt).toNat = (l + 29) % 65536 ∧ t.reg .hb = 0xFFFF ∧ t.reg .ht = 0xFFFF ∧
      (∀ r, r ∉ [Reg.ct, .pb, .pt, .hb, .ht] → t.reg r = 0) ∧
      t.status = .running ∧ t.err = .none ∧ t.input = input ∧ t.output = []

/-- 70_reset_and_hazards.md R201 and R202; the bound 65535 is the spec's decision D19 (assumption log 18). -/
def Obligations.RefusedLoadChangesNothing : Prop :=
  ∀ (s : State) (image input : List Byte), (image.length % 4 ≠ 0 ∨ 65535 < image.length / 4) →
    load image input s = .error .fileLength s

/-- The model's choices of assumption log 2, 3 and 4, over 70_reset_and_hazards.md R200 and R204; that no step is enabled before a load is the spec's decision D17, the named stop assumption log 7 (DEDUCED). -/
def Obligations.ResetStateValues : Prop :=
  load [] [] State.unloaded = .ok () State.reset ∧ State.reset.reg .pt = 29 ∧ State.reset.reg .ht = 0xFFFF ∧
  State.reset.reg .cp = 0 ∧ State.reset.reg .st = 0 ∧
  (∀ r, State.unloaded.reg r = 0) ∧ (∀ a, State.unloaded.codeAt a = 0 ∧ State.unloaded.dataAt a = 0) ∧
  step State.unloaded = .fault .neverLoaded

/-- 60_exceptions.md R175 and R176; that completed sub-steps stay is the spec's decision D16 (assumption log 16), that a fault is a next state is assumption log 6. -/
def Obligations.FaultEntry : Prop :=
  ∀ (x : M Unit) (s u : State) (k : ErrKind), x s = .error k u →
    ∃ t, conclude x s = .next t ∧ t.status = .faulted ∧ t.err = k ∧ t.faddr = u.reg .cp - 1 ∧ t.regs = u.regs ∧ t.code = u.code ∧
      t.data = u.data ∧ SameStreams u t

/-- 60_exceptions.md R173 (marked derived there) and R176, with the spec's decisions D4, D5, D15 and D21 (assumption logs 13, 14, 16, 17). -/
def Obligations.FaultReportNamesInstruction : Prop :=
  ∀ s t : State, s.HeapPinned → step s = .next t →
    (t.status = .faulted ∧ t.faddr = s.reg .cp ∧
      (s.reg .ct ≤ s.reg .cp ∧ t.err = .codeAccessViolation ∨
        s.reg .cp < s.reg .ct ∧ t.err ∈ mayRaise (decode (s.codeAt (s.reg .cp))))) ∨
    (t.status ≠ .faulted ∧ t.err = s.err ∧ t.faddr = s.faddr)

/-- 60_exceptions.md R186. That the word is a HALT is read through the decoder (numbers: the spec's decision D1, assumption log 11). That ERR is 0 at the halt needs that it is none until a fault, the part `ErrClear` of the invariant that StepKeepsInvariant and ResetMeetsInvariant state; that a load clears ERR is the spec's decision D17. -/
def Obligations.RunEndsWellOnlyAtHalt : Prop :=
  ∀ s t : State, step s = .next t →
    (t.EndedWell ↔ s.reg .cp < s.reg .ct ∧ decode (s.codeAt (s.reg .cp)) = .halt) ∧
    (t.EndedWell → t.reg .cp = s.reg .cp + 1 ∧ t.err = s.err ∧ t.code = s.code ∧ t.data = s.data ∧ SameStreams s t) ∧
    (s.ErrClear → t.EndedWell → t.err = .none)

/-- 43_control_transfer.md R113 and 40_fetch_and_stack_primitives.md R75. The first clause, about exec of HALT, is the model's choice of assumption log 8 (DEDUCED): R113 says that the dispatcher never executes it. That no step follows is 60_exceptions.md R177, as the model has it in assumption log 7 (DEDUCED). -/
def Obligations.HaltStopsRun : Prop :=
  ∀ s : State,
    (∃ t, exec .halt s = .next t ∧ t.status = .halted ∧ t.regs = s.regs ∧ t.code = s.code ∧ t.data = s.data ∧
      t.err = s.err ∧ t.faddr = s.faddr ∧ SameStreams s t) ∧
    (s.status = .running → s.reg .cp < s.reg .ct → decode (s.codeAt (s.reg .cp)) = .halt →
      ∃ t, step s = .next t ∧ t.status = .halted ∧ t.reg .cp = s.reg .cp + 1 ∧ (∀ r, r ≠ .cp → t.reg r = s.reg r) ∧ t.code = s.code ∧
        t.data = s.data ∧ t.err = s.err ∧ t.faddr = s.faddr ∧ SameStreams s t ∧ ∀ u, step t ≠ .next u)

/-- 41_load_store.md R90 and R91; checking and pushing word by word is the spec's decision D11, the address before everything D10 (assumption log 15). -/
def Obligations.LoadPushesBlock : Prop :=
  ∀ (s : State) (r : Reg) (n : BitVec 8) (d : Word), s.HeapPinned → (n = 0 ∨ s.calcAddress r d < s.reg .st) →
    s.top + n.toNat ≤ 65535 →
    ∃ t, exec (.load r n d) s = .next t ∧ t.reg .st = s.reg .st + BitVec.ofNat 16 n.toNat ∧
      (∀ k < n.toNat, t.dataAt (s.reg .st + BitVec.ofNat 16 k) = t.dataAt (s.calcAddress r d + BitVec.ofNat 16 k)) ∧
      Frame [.st] (InBlock (s.reg .st) n.toNat) s t ∧ Quiet s t

/-- 40_fetch_and_stack_primitives.md R74, 41_load_store.md R90, R91, R93; the order within a word is the spec's decision D11, the address of LOAD before everything D10, the unsigned reading of the popped word D24, what stays after a fault D16 (assumption logs 15, 19, 16). -/
def Obligations.LoadBlockFaults : Prop :=
  (∀ (s : State) (r : Reg) (n : BitVec 8) (d : Word), n ≠ 0 →
    (s.reg .st ≤ s.calcAddress r d ∧ s.calcAddress r d ≤ s.reg .ht →
      exec (.load r n d) s = .next (s.faulted .dataAccessViolation)) ∧
    (¬ (s.reg .st ≤ s.calcAddress r d ∧ s.calcAddress r d ≤ s.reg .ht) → s.reg .ht ≤ s.reg .st →
      exec (.load r n d) s = .next (s.faulted .stackOverflow))) ∧
  (∀ (s : State) (n : BitVec 8),
    (s.reg .st = 0 → exec (.loadi n) s = .next (s.faulted .stackUnderflow)) ∧
    (s.reg .st ≠ 0 → n ≠ 0 → s.reg .st - 1 ≤ s.below 0 ∧ s.below 0 ≤ s.reg .ht →
      exec (.loadi n) s = .next ((s.setReg .st (s.reg .st - 1)).faulted .dataAccessViolation))) ∧
  (∀ (s : State) (r : Reg) (n : BitVec 8) (d : Word), s.HeapPinned → s.calcAddress r d < s.reg .st → 65535 < s.top + n.toNat →
    ∃ t, exec (.load r n d) s = .next t ∧ t.status = .faulted ∧ t.err = .stackOverflow ∧ t.faddr = s.reg .cp - 1 ∧
      t.reg .st = 0xFFFF ∧
      (∀ k < 65535 - s.top, t.dataAt (s.reg .st + BitVec.ofNat 16 k) = t.dataAt (s.calcAddress r d + BitVec.ofNat 16 k)) ∧
      Frame [.st] (InBlock (s.reg .st) (65535 - s.top)) s t ∧ SameStreams s t) ∧
  (∀ (s : State) (n : BitVec 8), s.HeapPinned → s.reg .st ≠ 0 → s.below 0 < s.reg .st - 1 → 65535 < s.top - 1 + n.toNat →
    ∃ t, exec (.loadi n) s = .next t ∧ t.status = .faulted ∧ t.err = .stackOverflow ∧ t.faddr = s.reg .cp - 1 ∧
      t.reg .st = 0xFFFF ∧
      (∀ k < 65535 - (s.top - 1), t.dataAt (s.reg .st - 1 + BitVec.ofNat 16 k) = t.dataAt (s.below 0 + BitVec.ofNat 16 k)) ∧
      Frame [.st] (InBlock (s.reg .st - 1) (65535 - (s.top - 1))) s t ∧ SameStreams s t)

/-- 41_load_store.md R92; that the pushed data word has the 16 bits of the address (10_state.md R16), for addresses of 32768 and more too, is the spec's decision D24 (assumption log 19). -/
def Obligations.LoadaPushesAddress : Prop :=
  ∀ (s : State) (r : Reg) (d : Word),
    (s.reg .st < s.reg .ht → ∃ t, exec (.loada r d) s = .next t ∧ Delivers s t 0 (s.reg r + d)) ∧
    (s.reg .ht ≤ s.reg .st → exec (.loada r d) s = .next (s.faulted .stackOverflow))

/-- 41_load_store.md R95. -/
def Obligations.LoadlPushesLiteral : Prop :=
  ∀ (s : State) (d : Word),
    (s.reg .st < s.reg .ht → ∃ t, exec (.loadl d) s = .next t ∧ Delivers s t 0 d) ∧
    (s.reg .ht ≤ s.reg .st → exec (.loadl d) s = .next (s.faulted .stackOverflow))

/-- 41_load_store.md R90 and R93; checking and pushing word by word is the spec's decision D11 (assumption log 15), the unsigned reading of the popped word D24 (assumption log 19). -/
def Obligations.LoadiPushesBlock : Prop :=
  ∀ (s : State) (n : BitVec 8), s.HeapPinned → s.reg .st ≠ 0 → (n = 0 ∨ s.below 0 < s.reg .st - 1) →
    s.top - 1 + n.toNat ≤ 65535 →
    ∃ t, exec (.loadi n) s = .next t ∧ t.reg .st = s.reg .st - 1 + BitVec.ofNat 16 n.toNat ∧
      (∀ k < n.toNat, t.dataAt (s.reg .st - 1 + BitVec.ofNat 16 k) = t.dataAt (s.below 0 + BitVec.ofNat 16 k)) ∧
      Frame [.st] (InBlock (s.reg .st - 1) n.toNat) s t ∧ Quiet s t

/-- 41_load_store.md R94 and R96; the address before the pops is the spec's decision D10, the order of writes D12 (assumption log 15). -/
def Obligations.StoreWritesBlock : Prop :=
  ∀ (s : State) (r : Reg) (n : BitVec 8) (d : Word), n.toNat ≤ s.top →
    (n = 0 ∨ (s.calcAddress r d).toNat + n.toNat ≤ s.top - n.toNat) →
    ∃ t, exec (.store r n d) s = .next t ∧ t.reg .st = s.reg .st - BitVec.ofNat 16 n.toNat ∧
      (∀ k < n.toNat, t.dataAt (s.calcAddress r d + BitVec.ofNat 16 k) =
        s.dataAt (s.reg .st - BitVec.ofNat 16 n.toNat + BitVec.ofNat 16 k)) ∧
      Frame [.st] (InBlock (s.calcAddress r d) n.toNat) s t ∧ Quiet s t

/-- 41_load_store.md R94 and R97; the order of writes is the spec's decision D12 (assumption log 15), the unsigned reading of the address word D24 (assumption log 19). -/
def Obligations.StoreiWritesBlock : Prop :=
  ∀ (s : State) (n : BitVec 8), n.toNat + 1 ≤ s.top →
    (n = 0 ∨ (s.below n.toNat).toNat + n.toNat ≤ s.top - (n.toNat + 1)) →
    ∃ t, exec (.storei n) s = .next t ∧ t.reg .st = s.reg .st - BitVec.ofNat 16 (n.toNat + 1) ∧
      (∀ k < n.toNat, t.dataAt (s.below n.toNat + BitVec.ofNat 16 k) =
        s.dataAt (s.reg .st - BitVec.ofNat 16 n.toNat + BitVec.ofNat 16 k)) ∧
      Frame [.st] (InBlock (s.below n.toNat) n.toNat) s t ∧ Quiet s t

/-- 41_load_store.md R94, R96, R97 with the spec's decisions D10, D12 (assumption log 15), D16 (assumption log 16) and D24 (assumption log 19). -/
def Obligations.StoreFaultsBeforeWriting : Prop :=
  (∀ (s : State) (r : Reg) (n : BitVec 8) (d : Word),
    (s.top < n.toNat → exec (.store r n d) s = .next ((s.setReg .st 0).faulted .stackUnderflow)) ∧
    (n.toNat ≤ s.top → n ≠ 0 → s.reg .st - BitVec.ofNat 16 n.toNat ≤ s.calcAddress r d ∧ s.calcAddress r d ≤ s.reg .ht →
      exec (.store r n d) s = .next ((s.setReg .st (s.reg .st - BitVec.ofNat 16 n.toNat)).faulted .dataAccessViolation))) ∧
  (∀ (s : State) (n : BitVec 8),
    (s.top < n.toNat + 1 → exec (.storei n) s = .next ((s.setReg .st 0).faulted .stackUnderflow)) ∧
    (n.toNat + 1 ≤ s.top → n ≠ 0 →
      s.reg .st - BitVec.ofNat 16 (n.toNat + 1) ≤ s.below n.toNat ∧ s.below n.toNat ≤ s.reg .ht →
      exec (.storei n) s =
        .next ((s.setReg .st (s.reg .st - BitVec.ofNat 16 (n.toNat + 1))).faulted .dataAccessViolation)))

/-- 41_load_store.md R94, R96, R97 with the spec's decisions D10, D12 (assumption log 15), D16 (assumption log 16) and D24 (assumption log 19). -/
def Obligations.StoreStopsAtTheGap : Prop :=
  (∀ (s : State) (r : Reg) (n : BitVec 8) (d : Word), s.HeapPinned → n.toNat ≤ s.top →
    (s.calcAddress r d).toNat < s.top - n.toNat → s.top - n.toNat < (s.calcAddress r d).toNat + n.toNat →
    ∃ t, exec (.store r n d) s = .next t ∧ t.status = .faulted ∧ t.err = .dataAccessViolation ∧ t.faddr = s.reg .cp - 1 ∧
      t.reg .st = s.reg .st - BitVec.ofNat 16 n.toNat ∧
      (∀ k < s.top - n.toNat - (s.calcAddress r d).toNat, t.dataAt (s.calcAddress r d + BitVec.ofNat 16 k) =
        s.dataAt (s.reg .st - BitVec.ofNat 16 n.toNat + BitVec.ofNat 16 k)) ∧
      Frame [.st] (InBlock (s.calcAddress r d) (s.top - n.toNat - (s.calcAddress r d).toNat)) s t ∧ SameStreams s t) ∧
  (∀ (s : State) (n : BitVec 8), s.HeapPinned → n.toNat + 1 ≤ s.top →
    (s.below n.toNat).toNat < s.top - (n.toNat + 1) → s.top - (n.toNat + 1) < (s.below n.toNat).toNat + n.toNat →
    ∃ t, exec (.storei n) s = .next t ∧ t.status = .faulted ∧ t.err = .dataAccessViolation ∧ t.faddr = s.reg .cp - 1 ∧
      t.reg .st = s.reg .st - BitVec.ofNat 16 (n.toNat + 1) ∧
      (∀ k < s.top - (n.toNat + 1) - (s.below n.toNat).toNat, t.dataAt (s.below n.toNat + BitVec.ofNat 16 k) =
        s.dataAt (s.reg .st - BitVec.ofNat 16 n.toNat + BitVec.ofNat 16 k)) ∧
      Frame [.st] (InBlock (s.below n.toNat) (s.top - (n.toNat + 1) - (s.below n.toNat).toNat)) s t ∧ SameStreams s t)

/-- 42_stack_adjust.md R100 with the spec's decisions D4 (assumption log 13) and D23 (assumption log 15). -/
def Obligations.PushReservesWords : Prop :=
  ∀ (s : State) (d : Word),
    (0 ≤ d.toInt → s.top + d.toNat < (s.reg .ht).toNat → exec (.push d) s = .next (s.setReg .st (s.reg .st + d))) ∧
    (0 ≤ d.toInt → (s.reg .ht).toNat ≤ s.top + d.toNat → exec (.push d) s = .next (s.faulted .stackOverflow)) ∧
    (d.toInt < 0 → exec (.push d) s = .next (s.faulted .illegalInstruction))

/-- 42_stack_adjust.md R101. The premise that the heap top is pinned is the invariant of 10_state.md R12. -/
def Obligations.PopRemovesBlock : Prop :=
  ∀ (s : State) (n : BitVec 8) (d : Word), s.HeapPinned → 0 ≤ d.toInt → n.toNat + d.toNat ≤ s.top →
    ∃ t, exec (.pop n d) s = .next t ∧ t.reg .st = s.reg .st - d ∧
      (∀ k < n.toNat, t.dataAt (s.reg .st - BitVec.ofNat 16 n.toNat - d + BitVec.ofNat 16 k) =
        s.dataAt (s.reg .st - BitVec.ofNat 16 n.toNat + BitVec.ofNat 16 k)) ∧
      Frame [.st] (InBlock (s.reg .st - BitVec.ofNat 16 n.toNat - d) n.toNat) s t ∧ Quiet s t

/-- 42_stack_adjust.md R101 and 43_control_transfer.md R108 with the spec's decisions D4, D14 and D16 (assumption logs 13, 15, 16). -/
def Obligations.PopAndReturnFaults : Prop :=
  ∀ (s : State) (n : BitVec 8) (d : Word),
    (d.toInt < 0 → exec (.pop n d) s = .next (s.faulted .illegalInstruction) ∧
      exec (.ret n d) s = .next (s.faulted .illegalInstruction)) ∧
    (0 ≤ d.toInt → s.top < n.toNat + d.toNat → exec (.pop n d) s = .next ((s.setReg .st 0).faulted .stackUnderflow)) ∧
    (0 ≤ d.toInt → (s.top < n.toNat ∨ (s.reg .lb).toNat < d.toNat) →
      exec (.ret n d) s = .next ((s.setReg .st 0).faulted .stackUnderflow)) ∧
    (s.HeapPinned → 0 ≤ d.toInt → n.toNat ≤ s.top → d.toNat ≤ (s.reg .lb).toNat → 65535 < (s.reg .lb).toNat - d.toNat + n.toNat →
      ∃ t, exec (.ret n d) s = .next t ∧ t.status = .faulted ∧ t.err = .stackOverflow ∧ t.faddr = s.reg .cp - 1 ∧ t.reg .st = 0xFFFF ∧
        (∀ k < 65535 - ((s.reg .lb).toNat - d.toNat), t.dataAt (s.reg .lb - d + BitVec.ofNat 16 k) =
          s.dataAt (s.reg .st - BitVec.ofNat 16 n.toNat + BitVec.ofNat 16 k)) ∧
        Frame [.st] (InBlock (s.reg .lb - d) (65535 - ((s.reg .lb).toNat - d.toNat))) s t ∧ SameStreams s t)

/-- 43_control_transfer.md R106; that the static link is read before the first push is the spec's decision D13, the target before everything D10 (assumption log 15), the register numbers D2 (assumption log 11), the 16 bits kept between registers and data words (10_state.md R16) D24 (assumption log 19). -/
def Obligations.CallBuildsFrame : Prop :=
  ∀ (s : State) (r q : Reg) (n : BitVec 8) (d : Word), selectsPrimitive r d = false → s.HeapPinned →
    s.calcAddress r d < s.reg .ct → n = (regNumber q).setWidth 8 → s.top + 3 ≤ 65535 →
    ∃ t, exec (.call r n d) s = .next t ∧ t.reg .st = s.reg .st + 3 ∧ t.reg .lb = s.reg .st ∧ t.reg .cp = s.calcAddress r d ∧
      t.dataAt (s.reg .st) = s.reg q ∧ t.dataAt (s.reg .st + 1) = s.reg .lb ∧ t.dataAt (s.reg .st + 2) = s.reg .cp ∧
      Frame [.st, .lb, .cp] (InBlock (s.reg .st) 3) s t ∧ Quiet s t

/-- 43_control_transfer.md R106 with the spec's decisions D4 (assumption log 13) and D13 (assumption log 15). -/
def Obligations.CallFaultsBeforePushing : Prop :=
  ∀ (s : State) (r : Reg) (n : BitVec 8) (d : Word), selectsPrimitive r d = false →
    (s.reg .ct ≤ s.calcAddress r d → exec (.call r n d) s = .next (s.faulted .codeAccessViolation)) ∧
    (s.calcAddress r d < s.reg .ct → 16 ≤ n.toNat → exec (.call r n d) s = .next (s.faulted .illegalInstruction)) ∧
    (s.calcAddress r d < s.reg .ct → n.toNat < 16 → s.reg .ht ≤ s.reg .st →
      exec (.call r n d) s = .next (s.faulted .stackOverflow))

/-- 43_control_transfer.md R105, with the identifiers of the spec's decision D3 (assumption log 11) and assumption log 20. -/
def Obligations.CallDispatchesPrimitive : Prop :=
  ∀ (s t : State) (n : BitVec 8) (k : Nat) (i : Instr), primMap k = some i →
    exec (.call .pb n (BitVec.ofNat 16 k)) s = exec i s ∧
    (exec i s = .next t → t.reg .lb = s.reg .lb ∧ t.reg .cp = s.reg .cp)

/-- 43_control_transfer.md R108; the order of sub-steps is the spec's decision D14, the wrap of the frame reads D26 (assumption log 15), the 16 bits kept between registers and data words (10_state.md R16) D24 (assumption log 19). -/
def Obligations.ReturnUnwindsFrame : Prop :=
  ∀ (s : State) (n : BitVec 8) (d : Word), s.HeapPinned → 0 ≤ d.toInt → n.toNat ≤ s.top → d.toNat ≤ (s.reg .lb).toNat →
    (s.reg .lb).toNat - d.toNat + n.toNat ≤ 65535 →
    ∃ t, exec (.ret n d) s = .next t ∧ t.reg .st = s.reg .lb - d + BitVec.ofNat 16 n.toNat ∧
      t.reg .lb = s.dataAt (s.reg .lb + 1) ∧ t.reg .cp = s.dataAt (s.reg .lb + 2) ∧
      (∀ k < n.toNat, t.dataAt (s.reg .lb - d + BitVec.ofNat 16 k) =
        s.dataAt (s.reg .st - BitVec.ofNat 16 n.toNat + BitVec.ofNat 16 k)) ∧
      Frame [.st, .lb, .cp] (InBlock (s.reg .lb - d) n.toNat) s t ∧ Quiet s t

/-- 43_control_transfer.md R107 (marked derived there), over R106 and R108 with the spec's decisions D13 and D14 (assumption log 15) and D24 (assumption log 19). -/
def Obligations.CallThenReturnRestores : Prop :=
  ∀ (s t u : State) (r : Reg) (n m : BitVec 8) (d e : Word), selectsPrimitive r d = false → s.HeapPinned →
    exec (.call r n d) s = .next t → s.status = .running → t.status = .running →
    u.HeapPinned → u.reg .lb = t.reg .lb → u.dataAt (t.reg .lb + 1) = t.dataAt (t.reg .lb + 1) →
    u.dataAt (t.reg .lb + 2) = t.dataAt (t.reg .lb + 2) → u.top = t.top + m.toNat → 0 ≤ e.toInt → e.toNat ≤ s.top →
    ∃ v, exec (.ret m e) u = .next v ∧ v.reg .cp = s.reg .cp ∧ v.reg .lb = s.reg .lb ∧
      v.reg .st = s.reg .st - e + BitVec.ofNat 16 m.toNat ∧
      (∀ k < m.toNat, v.below k = u.below k) ∧ Quiet u v

/-- 43_control_transfer.md R114 and 45_primitives_io.md R159, by the spec's decision D4 (assumption log 13). -/
def Obligations.ReservedEncodingsFault : Prop :=
  ∀ (s : State) (i : Instr), i ∈ [Instr.reserved6, .reserved7, .primReserved27, .primReserved28] →
    ∃ t, exec i s = .next t ∧ t.status = .faulted ∧ t.err = .illegalInstruction ∧ t.faddr = s.reg .cp - 1 ∧ t.regs = s.regs ∧
      t.code = s.code ∧ t.data = s.data ∧ SameStreams s t

/-- 43_control_transfer.md R109. -/
def Obligations.JumpSetsCheckedTarget : Prop :=
  ∀ (s : State) (r : Reg) (d : Word),
    (s.reg r + d < s.reg .ct → exec (.jump r d) s = .next (s.setReg .cp (s.reg r + d))) ∧
    (s.reg .ct ≤ s.reg r + d → exec (.jump r d) s = .next (s.faulted .codeAccessViolation))

/-- 43_control_transfer.md R110; that the pop stays done in a Faulted machine (60_exceptions.md R175) is the spec's decision D16 (assumption log 16), the unsigned reading of the popped word (10_state.md R16) D24 (assumption log 19). -/
def Obligations.JumpiPopsTarget : Prop :=
  ∀ s : State,
    (s.reg .st = 0 → exec .jumpi s = .next (s.faulted .stackUnderflow)) ∧
    (s.reg .st ≠ 0 → s.below 0 < s.reg .ct →
      exec .jumpi s = .next ((s.setReg .st (s.reg .st - 1)).setReg .cp (s.below 0))) ∧
    (s.reg .st ≠ 0 → s.reg .ct ≤ s.below 0 →
      exec .jumpi s = .next ((s.setReg .st (s.reg .st - 1)).faulted .codeAccessViolation))

/-- 43_control_transfer.md R111 with the spec's decisions D10 (assumption log 15), D16 (assumption log 16) and D24 (assumption log 19). -/
def Obligations.JumpifTestsPoppedWord : Prop :=
  ∀ (s : State) (r : Reg) (n : BitVec 8) (d : Word),
    (s.reg .st = 0 → exec (.jumpif r n d) s = .next (s.faulted .stackUnderflow)) ∧
    (s.reg .st ≠ 0 → (s.below 0).toInt ≠ n.toNat → exec (.jumpif r n d) s = .next (s.setReg .st (s.reg .st - 1))) ∧
    (s.reg .st ≠ 0 → (s.below 0).toInt = n.toNat → s.calcAddress r d < s.reg .ct →
      exec (.jumpif r n d) s = .next ((s.setReg .st (s.reg .st - 1)).setReg .cp (s.calcAddress r d))) ∧
    (s.reg .st ≠ 0 → (s.below 0).toInt = n.toNat → s.reg .ct ≤ s.calcAddress r d →
      exec (.jumpif r n d) s = .next ((s.setReg .st (s.reg .st - 1)).faulted .codeAccessViolation))

/-- 44_primitives_alu.md R122. -/
def Obligations.IdRoutineChangesNothing : Prop :=
  ∀ s : State, exec .primId s = .next s

/-- 44_primitives_alu.md R123, R126, R127, R128 with the spec's decisions D6 and D8 (assumption log 14). -/
def Obligations.UnaryRoutinesReplaceTop : Prop :=
  ∀ s : State, s.HeapPinned → s.reg .st ≠ 0 →
    (∃ t, exec .primNot s = .next t ∧ Delivers s t 1 (if s.below 0 = 0 then 1 else 0)) ∧
    (∃ t, exec .primSucc s = .next t ∧ Delivers s t 1 (s.below 0 + 1)) ∧
    (∃ t, exec .primPred s = .next t ∧ Delivers s t 1 (s.below 0 - 1)) ∧
    (∃ t, exec .primNeg s = .next t ∧ Delivers s t 1 (-(s.below 0)))

/-- 44_primitives_alu.md R124, R125, R129, R130, R131 with the spec's decisions D6 and D9 (assumption log 14). -/
def Obligations.ArithmeticRoutinesReplaceTopTwo : Prop :=
  ∀ s : State, s.HeapPinned → 2 ≤ s.top →
    (∃ t, exec .primAdd s = .next t ∧ Delivers s t 2 (s.below 1 + s.below 0)) ∧
    (∃ t, exec .primOr s = .next t ∧ Delivers s t 2 (s.below 1 + s.below 0)) ∧
    (∃ t, exec .primSub s = .next t ∧ Delivers s t 2 (s.below 1 - s.below 0)) ∧
    (∃ t, exec .primMult s = .next t ∧ Delivers s t 2 (s.below 1 * s.below 0)) ∧
    (∃ t, exec .primAnd s = .next t ∧ Delivers s t 2 (s.below 1 * s.below 0))

/-- 44_primitives_alu.md R139, R140, R142 with the spec's decisions D6 and D9 (assumption log 14). -/
def Obligations.DivisionTruncatesTowardZero : Prop :=
  ∀ s : State, s.HeapPinned → 2 ≤ s.top → s.below 0 ≠ 0 →
    ∃ q m : Int, (s.below 1).toInt = q * (s.below 0).toInt + m ∧ m.natAbs < (s.below 0).toInt.natAbs ∧
      (m = 0 ∨ (0 < m ↔ 0 < (s.below 1).toInt)) ∧
      (∃ t, exec .primDiv s = .next t ∧ Delivers s t 2 (BitVec.ofInt 16 q)) ∧
      (∃ t, exec .primMod s = .next t ∧ Delivers s t 2 (BitVec.ofInt 16 m))

/-- 44_primitives_alu.md R132, R133 with the spec's decisions D8 and D9 (assumption log 14). -/
def Obligations.OrderRoutinesCompareSigned : Prop :=
  ∀ s : State, s.HeapPinned → 2 ≤ s.top →
    (∃ t, exec .primLt s = .next t ∧ Delivers s t 2 (if (s.below 1).toInt < (s.below 0).toInt then 1 else 0)) ∧
    (∃ t, exec .primLe s = .next t ∧ Delivers s t 2 (if (s.below 1).toInt ≤ (s.below 0).toInt then 1 else 0))

/-- 44_primitives_alu.md R134, R135 with the open parameter of the spec's decision D7 (assumption log 9): it holds for every value of it. The truth words and the operand order are its D8 and D9 (assumption log 14). -/
def Obligations.GeAndGtShareOneComparison : Prop :=
  ∃ open_ : Word, (open_ = 0 ∨ open_ = 1) ∧
    ∀ s : State, s.HeapPinned → 2 ≤ s.top → ∀ i ∈ [Instr.primGe, .primGt],
      ∃ t, exec i s = .next t ∧
        Delivers s t 2 (if s.below 1 = s.below 0 then open_
          else if (s.below 0).toInt < (s.below 1).toInt then 1 else 0)

/-- 44_primitives_alu.md R136, R137, R138 with the spec's decisions D8 and D25 (assumption log 14). -/
def Obligations.BlockCompareRoutines : Prop :=
  ∀ (s : State) (k : Nat), s.HeapPinned → 0 ≤ (s.below 0).toInt → (s.below 0).toNat = k → 1 + 2 * k ≤ s.top →
    ((∀ j < k, s.below (1 + j) = s.below (1 + k + j)) →
      (∃ t, exec .primEq s = .next t ∧ Delivers s t (1 + 2 * k) 1) ∧ (∃ t, exec .primNeq s = .next t ∧ Delivers s t (1 + 2 * k) 0)) ∧
    (¬ (∀ j < k, s.below (1 + j) = s.below (1 + k + j)) →
      (∃ t, exec .primEq s = .next t ∧ Delivers s t (1 + 2 * k) 0) ∧ (∃ t, exec .primNeq s = .next t ∧ Delivers s t (1 + 2 * k) 1))

/-- 44_primitives_alu.md R120, R141, R123 to R135 (the underflow of each routine), R139, R140 with the spec's decisions D5 and D9 (assumption log 14) and D16 (assumption log 16); the operands of get, put, getint and putint are 45_primitives_io.md R153, R154, R157, R158, by its decision D21 (assumption log 17). -/
def Obligations.RoutineFaults : Prop :=
  ∀ (s : State) (i : Instr),
    (i ∈ [Instr.primNot, .primSucc, .primPred, .primNeg, .primPut, .primPutint, .primGet, .primGetint] → s.reg .st = 0 →
      exec i s = .next (s.faulted .stackUnderflow)) ∧
    (i ∈ [Instr.primAnd, .primOr, .primAdd, .primSub, .primMult, .primDiv, .primMod, .primLt, .primLe, .primGe, .primGt] →
      s.top < 2 → exec i s = .next ((s.setReg .st 0).faulted .stackUnderflow)) ∧
    (i ∈ [Instr.primDiv, .primMod] → 2 ≤ s.top → s.below 0 = 0 →
      exec i s = .next ((s.setReg .st (s.reg .st - 2)).faulted .arithmeticFault))

/-- 44_primitives_alu.md R138 with the spec's decisions D4, D25 and D16 (assumption logs 13, 14, 16). -/
def Obligations.BlockCompareFaults : Prop :=
  ∀ (s : State) (i : Instr), i ∈ [Instr.primEq, .primNeq] →
    (s.reg .st = 0 → exec i s = .next (s.faulted .stackUnderflow)) ∧
    (s.reg .st ≠ 0 → (s.below 0).toInt < 0 →
      exec i s = .next ((s.setReg .st (s.reg .st - 1)).faulted .illegalInstruction)) ∧
    (s.reg .st ≠ 0 → 0 ≤ (s.below 0).toInt → s.top < 1 + 2 * (s.below 0).toNat →
      exec i s = .next ((s.setReg .st 0).faulted .stackUnderflow))

/-- 45_primitives_io.md R151, R152 with the spec's decisions D8 (assumption log 14) and D21 (assumption log 17). -/
def Obligations.EolAndEofPeek : Prop :=
  ∀ s : State,
    (s.reg .st < s.reg .ht →
      (∃ t, exec .primEol s = .next t ∧ Delivers s t 0 (if s.input.head? = some 0x0A then 1 else 0)) ∧
      (∃ t, exec .primEof s = .next t ∧ Delivers s t 0 (if s.input = [] then 1 else 0))) ∧
    (s.reg .ht ≤ s.reg .st →
      exec .primEol s = .next (s.faulted .stackOverflow) ∧ exec .primEof s = .next (s.faulted .stackOverflow))

/-- 45_primitives_io.md R153 with the spec's decision D21 (assumption log 17); the unsigned reading of the address word is D24 (assumption log 19). -/
def Obligations.GetStoresInputByte : Prop :=
  ∀ (s : State) (b : Byte) (rest : List Byte), s.reg .st ≠ 0 → s.below 0 < s.reg .st - 1 → s.input = b :: rest →
    ∃ t, exec .primGet s = .next t ∧ t.reg .st = s.reg .st - 1 ∧ (t.dataAt (s.below 0)).toNat = b.toNat ∧ t.input = rest ∧
      t.output = s.output ∧ Frame [.st] (fun a => a = s.below 0) s t ∧ SameReport s t

/-- 45_primitives_io.md R154, R156 with the spec's decision D21 (assumption log 17). -/
def Obligations.PutAndPuteolWrite : Prop :=
  ∀ s : State,
    (s.reg .st ≠ 0 → ∃ t b, exec .primPut s = .next t ∧ t.reg .st = s.reg .st - 1 ∧ t.output = s.output ++ [b] ∧
      b.toNat = (s.below 0).toNat % 256 ∧ t.input = s.input ∧ Frame [.st] (fun _ => False) s t ∧ SameReport s t) ∧
    (∃ t, exec .primPuteol s = .next t ∧ t.output = s.output ++ [0x0A] ∧ t.input = s.input ∧ Frame [] (fun _ => False) s t ∧
      SameReport s t)

/-- 45_primitives_io.md R155 with the spec's decision D21 (assumption log 17). -/
def Obligations.GeteolSkipsLine : Prop :=
  ∀ (s : State) (line rest : List Byte), s.input = line ++ 0x0A :: rest → (0x0A : Byte) ∉ line →
    ∃ t, exec .primGeteol s = .next t ∧ t.input = rest ∧ t.output = s.output ∧ Frame [] (fun _ => False) s t ∧ SameReport s t

/-- 45_primitives_io.md R157 with the open parameter of the spec's decision D21 (assumption logs 10, 17): it holds for every value of it. The unsigned reading of the address word is D24 (assumption log 19), the pop kept after the fault D16 (assumption log 16). -/
def Obligations.GetintStoresParsedInteger : Prop :=
  ∀ s : State, s.reg .st ≠ 0 → s.below 0 < s.reg .st - 1 →
    ∃ t, exec .primGetint s = .next t ∧
      match Config.parseInt s.input with
      | some (i, consumed) =>
        t.reg .st = s.reg .st - 1 ∧ t.dataAt (s.below 0) = BitVec.ofInt 16 i ∧ t.input = s.input.drop consumed ∧ t.output = s.output ∧
          Frame [.st] (fun a => a = s.below 0) s t ∧ SameReport s t
      | none => t = (s.setReg .st (s.reg .st - 1)).faulted .ioFault

/-- 45_primitives_io.md R158 with the spec's decision D21 (assumption log 17). -/
def Obligations.PutintWritesDecimal : Prop :=
  ∀ s : State, s.reg .st ≠ 0 →
    ∃ t digits, exec .primPutint s = .next t ∧ t.reg .st = s.reg .st - 1 ∧
      t.output = s.output ++ (if (s.below 0).toInt < 0 then [0x2D] else []) ++ digits ∧ digits ≠ [] ∧
      (∀ b ∈ digits, 0x30 ≤ b.toNat ∧ b.toNat ≤ 0x39) ∧ (digits.head? = some 0x30 → digits = [0x30]) ∧
      digits.foldl (fun value b => 10 * value + (b.toNat - 0x30)) 0 = (s.below 0).toInt.natAbs ∧
      t.input = s.input ∧ Frame [.st] (fun _ => False) s t ∧ SameReport s t

/-- 45_primitives_io.md R150, R153, R155, R157 with the spec's decisions D21 (assumption log 17), D16 (assumption log 16) and D24 (assumption log 19). -/
def Obligations.StreamFaults : Prop :=
  ∀ s : State,
    (∀ i ∈ [Instr.primGet, .primGetint], s.reg .st ≠ 0 → s.reg .st - 1 ≤ s.below 0 ∧ s.below 0 ≤ s.reg .ht →
      exec i s = .next ((s.setReg .st (s.reg .st - 1)).faulted .dataAccessViolation)) ∧
    (s.reg .st ≠ 0 → s.below 0 < s.reg .st - 1 → s.input = [] →
      exec .primGet s = .next ((s.setReg .st (s.reg .st - 1)).faulted .ioFault)) ∧
    ((0x0A : Byte) ∉ s.input → exec .primGeteol s = .next ((s.setInput []).faulted .ioFault))

/-- 10_state.md R12 and R15 items 1 to 3 (marked derived there); ERR over 60_exceptions.md R175, R177 and R186; the canonical form is the model's (assumption log 1). -/
def Obligations.StepKeepsInvariant : Prop :=
  ∀ s t : State, s.Inv → step s = .next t → t.Inv

/-- 10_state.md R15 and 70_reset_and_hazards.md R200; that a load clears ERR is the spec's decision D17; State.reset is the model's choice of assumption log 2, the canonical form of the stores that of assumption log 1. -/
def Obligations.ResetMeetsInvariant : Prop :=
  State.reset.Inv ∧ ∀ (s t : State) (image input : List Byte), load image input s = .ok () t → t.Inv

/-- 10_state.md R12 (marked derived there), R17, and 20_memory.md R41. -/
def Obligations.ConstantRegistersAndCode : Prop :=
  ∀ s t : State, step s = .next t → (∀ r, r ∉ [Reg.st, .lb, .cp] → t.reg r = s.reg r) ∧ t.code = s.code ∧ ∀ a, t.codeAt a = s.codeAt a

/-- 10_state.md R10 (the column 'written by') and 40_fetch_and_stack_primitives.md R78 (marked derived there); the stream routines are the spec's decision D21 (assumption log 17), the reserved rows D4 (assumption log 13), what a fault leaves D16 (assumption log 16). -/
def Obligations.RegisterFrame : Prop :=
  ∀ (i : Instr) (s t : State), i.wf = true → exec i s = .next t → ∀ r, r ∉ writtenRegs i → t.reg r = s.reg r

/-- 20_memory.md R36, R44 and the instruction rules of 41 to 45; the addresses are `storesTo`. The block of STORE at the address taken before the pops is the spec's decision D10, the block of RETURN below the frame base D14, blocks that wrap D26 (assumption log 15); the popped addresses of STOREI, get and getint read unsigned (10_state.md R16) D24 (assumption log 19); the result cell of eq and neq D25 (assumption log 14); what the stream routines store D21 (assumption log 17); that the reserved rows store nothing D4 (assumption log 13); what a fault leaves D16 (assumption log 16). -/
def Obligations.DataFrame : Prop :=
  ∀ (i : Instr) (s t : State), i.wf = true → exec i s = .next t → ∀ a, ¬ storesTo i s a → t.dataAt a = s.dataAt a

/-- 10_state.md R21 and 45_primitives_io.md, by the spec's decision D21 (assumption logs 10, 17); what a fault leaves is D16 (assumption log 16). -/
def Obligations.StreamFrame : Prop :=
  ∀ (i : Instr) (s t : State), i.wf = true → exec i s = .next t →
    (i ∉ [Instr.primGet, .primGeteol, .primGetint] → t.input = s.input) ∧ (∃ n, t.input = s.input.drop n) ∧
    (i ∉ [Instr.primPut, .primPuteol, .primPutint] → t.output = s.output) ∧ (∃ bytes, t.output = s.output ++ bytes)

/-- 40_fetch_and_stack_primitives.md R78 (marked derived there); the targets of JUMPIF and CALL before the pop and the pushes are the spec's decision D10, the word at LB + 2 read before the results are pushed D14 and modulo 65536 D26 (assumption log 15), what a fault leaves D16 (assumption log 16), the unsigned reading of data words D24 (assumption log 19). -/
def Obligations.CodePointerSummary : Prop :=
  ∀ (i : Instr) (s t : State), i.wf = true → s.status = .running → exec i s = .next t →
    (t.status = .faulted → t.reg .cp = s.reg .cp) ∧
    (t.status ≠ .faulted →
      match i with
      | .jump r d => t.reg .cp = s.calcAddress r d ∧ t.reg .cp < s.reg .ct
      | .call r _ d => t.reg .cp = s.calcAddress r d ∧ t.reg .cp < s.reg .ct
      | .jumpi => t.reg .cp = s.below 0 ∧ t.reg .cp < s.reg .ct
      | .jumpif r n d =>
        if (s.below 0).toInt = n.toNat then t.reg .cp = s.calcAddress r d ∧ t.reg .cp < s.reg .ct else t.reg .cp = s.reg .cp
      | .ret _ _ => t.reg .cp = s.dataAt (s.reg .lb + 2)
      | _ => t.reg .cp = s.reg .cp)

/-- 43_control_transfer.md R106 with the spec's decisions D13 (assumption log 15) and D16 (assumption log 16), the register numbers D2 (assumption log 11), the 16 bits kept between registers and data words (10_state.md R16) D24 (assumption log 19). -/
def Obligations.CallOverflowKeepsPushes : Prop :=
  ∀ (s : State) (r q : Reg) (n : BitVec 8) (d : Word), selectsPrimitive r d = false → s.HeapPinned →
    s.calcAddress r d < s.reg .ct → n = (regNumber q).setWidth 8 → 65535 < s.top + 3 →
    ∃ t, exec (.call r n d) s = .next t ∧ t.status = .faulted ∧ t.err = .stackOverflow ∧ t.faddr = s.reg .cp - 1 ∧ t.reg .st = 0xFFFF ∧
      (s.top ≤ 65534 → t.dataAt (s.reg .st) = s.reg q) ∧ (s.top ≤ 65533 → t.dataAt (s.reg .st + 1) = s.reg .lb) ∧
      Frame [.st] (InBlock (s.reg .st) (65535 - s.top)) s t ∧ SameStreams s t
end

