-- ==== Sys2Proof/Laws/Memory.lean ====
section
/-! SUPPORT. The laws of a store: a read after a write, and that every operation keeps the canonical form. -/

namespace Sys2Proof.Machine

variable {w : Nat}

@[simp] theorem Memory.read_nil (a : Nat) : Memory.read ([] : List (Nat × BitVec w)) a = 0 := rfl

theorem Memory.read_insert (m : List (Nat × BitVec w)) (a b : Nat) (v : BitVec w) :
    Memory.read (Memory.insert m a v) b = if b = a then v else Memory.read m b := by
  induction m with
  | nil => simp [Memory.insert, Memory.read]
  | cons cell rest ih =>
    obtain ⟨c, u⟩ := cell
    unfold Memory.insert
    split
    · simp only [Memory.read]
    · split
      · subst_vars
        simp only [Memory.read]
        split <;> rfl
      · simp only [Memory.read, ih]
        split <;> split <;> first | rfl | omega

theorem Memory.read_filter (m : List (Nat × BitVec w)) (a b : Nat) :
    Memory.read (m.filter (fun cell => cell.1 ≠ a)) b = if b = a then 0 else Memory.read m b := by
  induction m with
  | nil => simp
  | cons cell rest ih =>
    obtain ⟨c, u⟩ := cell
    by_cases hc : c = a
    · rw [List.filter_cons_of_neg (by simpa using hc), ih]
      simp only [Memory.read]
      split <;> [rfl; (split <;> [omega; rfl])]
    · rw [List.filter_cons_of_pos (by simpa using hc)]
      simp only [Memory.read, ih]
      split <;> split <;> first | rfl | omega

/-- A read after a write: the word written at that address, the old word at every other. -/
theorem Memory.read_write (m : List (Nat × BitVec w)) (a b : Nat) (v : BitVec w) :
    Memory.read (Memory.write m a v) b = if b = a then v else Memory.read m b := by
  unfold Memory.write
  split
  · subst_vars; exact Memory.read_filter m a b
  · exact Memory.read_insert m a b v

theorem Memory.wfFrom_mono {lo lo' : Nat} (h : lo' ≤ lo) {m : List (Nat × BitVec w)} (hm : Memory.wfFrom lo m = true) :
    Memory.wfFrom lo' m = true := by
  cases m with
  | nil => rfl
  | cons cell rest =>
    simp only [Memory.wfFrom, Bool.and_eq_true, decide_eq_true_eq] at hm ⊢
    exact ⟨⟨by omega, hm.1.2⟩, hm.2⟩

theorem Memory.wfFrom_insert {lo : Nat} {m : List (Nat × BitVec w)} {a : Nat} {v : BitVec w} (hm : Memory.wfFrom lo m = true)
    (hlo : lo ≤ a) (ha : a < 65536) (hv : v ≠ 0) : Memory.wfFrom lo (Memory.insert m a v) = true := by
  induction m generalizing lo with
  | nil => simpa [Memory.insert, Memory.wfFrom, hlo, ha] using hv
  | cons cell rest ih =>
    obtain ⟨c, u⟩ := cell
    simp only [Memory.wfFrom, Bool.and_eq_true, decide_eq_true_eq] at hm
    unfold Memory.insert
    split
    · simp only [Memory.wfFrom, Bool.and_eq_true, decide_eq_true_eq]
      exact ⟨⟨hlo, ha, hv⟩, ⟨by omega, hm.1.2⟩, hm.2⟩
    · split
      · subst_vars
        simp only [Memory.wfFrom, Bool.and_eq_true, decide_eq_true_eq]
        exact ⟨⟨hlo, ha, hv⟩, hm.2⟩
      · simp only [Memory.wfFrom, Bool.and_eq_true, decide_eq_true_eq]
        exact ⟨hm.1, ih hm.2 (by omega)⟩

theorem Memory.wfFrom_filter {lo : Nat} {m : List (Nat × BitVec w)} (p : Nat × BitVec w → Bool) (hm : Memory.wfFrom lo m = true) :
    Memory.wfFrom lo (m.filter p) = true := by
  induction m generalizing lo with
  | nil => rfl
  | cons cell rest ih =>
    simp only [Memory.wfFrom, Bool.and_eq_true, decide_eq_true_eq] at hm
    by_cases hp : p cell
    · rw [List.filter_cons_of_pos hp]
      simp only [Memory.wfFrom, Bool.and_eq_true, decide_eq_true_eq]
      exact ⟨hm.1, ih hm.2⟩
    · rw [List.filter_cons_of_neg hp]
      exact Memory.wfFrom_mono (by omega) (ih hm.2)

/-- A write keeps the canonical form. -/
theorem Memory.wf_write {m : List (Nat × BitVec w)} {a : Nat} {v : BitVec w} (hm : Memory.wf m = true) (ha : a < 65536) :
    Memory.wf (Memory.write m a v) = true := by
  unfold Memory.write
  split
  · exact Memory.wfFrom_filter _ hm
  · exact Memory.wfFrom_insert hm (Nat.zero_le a) ha ‹_›

theorem Memory.wfFrom_ofWords (vs : List (BitVec w)) (a : Nat) (h : a + vs.length ≤ 65536) :
    Memory.wfFrom a (Memory.ofWords a vs) = true := by
  induction vs generalizing a with
  | nil => rfl
  | cons v vs ih =>
    simp only [List.length_cons] at h
    unfold Memory.ofWords
    split
    · exact Memory.wfFrom_mono (Nat.le_succ a) (ih (a + 1) (by omega))
    · simp only [Memory.wfFrom, Bool.and_eq_true, decide_eq_true_eq]
      exact ⟨⟨le_refl a, by omega, ‹_›⟩, ih (a + 1) (by omega)⟩

/-- The store a load builds is in canonical form. -/
theorem Memory.wf_ofWords (vs : List (BitVec w)) (h : vs.length ≤ 65536) : Memory.wf (Memory.ofWords 0 vs) = true :=
  Memory.wfFrom_ofWords vs 0 (by omega)

theorem Memory.read_ofWords (vs : List (BitVec w)) (a b : Nat) :
    Memory.read (Memory.ofWords a vs) b = if a ≤ b then vs.getD (b - a) 0 else 0 := by
  induction vs generalizing a with
  | nil => simp [Memory.ofWords]
  | cons v vs ih =>
    have key : Memory.read (Memory.ofWords a (v :: vs)) b = if b = a then v else Memory.read (Memory.ofWords (a + 1) vs) b := by
      rw [Memory.ofWords]
      split
      · rw [ih]
        split <;> split <;> first | rfl | omega | simp_all
      · rfl
    rw [key, ih]
    rcases lt_trichotomy b a with h | h | h
    · rw [if_neg (by omega), if_neg (by omega), if_neg (by omega)]
    · subst h; simp
    · rw [if_neg (by omega), if_pos (by omega), if_pos (by omega)]
      obtain ⟨k, rfl⟩ := Nat.exists_eq_add_of_lt h
      rw [show a + k + 1 - (a + 1) = k by omega, show a + k + 1 - a = k + 1 by omega]
      rfl

/-- Two canonical stores that read alike are the same list. -/
theorem Memory.ext_of_wfFrom {lo : Nat} {m m' : List (Nat × BitVec w)} (hm : Memory.wfFrom lo m = true)
    (hm' : Memory.wfFrom lo m' = true) (h : ∀ a, Memory.read m a = Memory.read m' a) : m = m' := by
  have below : ∀ (m : List (Nat × BitVec w)) (lo a : Nat), Memory.wfFrom lo m = true → a < lo → Memory.read m a = 0 := by
    intro m
    induction m with
    | nil => intros; rfl
    | cons cell rest ih =>
      intro lo a hw ha
      simp only [Memory.wfFrom, Bool.and_eq_true, decide_eq_true_eq] at hw
      rw [Memory.read, if_neg (by omega)]
      exact ih _ _ hw.2 (by omega)
  induction m generalizing lo m' with
  | nil =>
    cases m' with
    | nil => rfl
    | cons cell rest =>
      simp only [Memory.wfFrom, Bool.and_eq_true, decide_eq_true_eq] at hm'
      have := h cell.1
      simp [Memory.read] at this
      exact absurd this.symm hm'.1.2.2
  | cons cell rest ih =>
    obtain ⟨a, v⟩ := cell
    simp only [Memory.wfFrom, Bool.and_eq_true, decide_eq_true_eq] at hm
    cases m' with
    | nil =>
      have := h a
      simp [Memory.read] at this
      exact absurd this hm.1.2.2
    | cons cell' rest' =>
      obtain ⟨a', v'⟩ := cell'
      simp only [Memory.wfFrom, Bool.and_eq_true, decide_eq_true_eq] at hm'
      have haa : a = a' := by
        rcases lt_trichotomy a a' with hlt | heq | hgt
        · have h1 := h a
          rw [Memory.read, if_pos rfl, Memory.read, if_neg (by omega), below rest' _ a hm'.2 (by omega)] at h1
          exact absurd h1 hm.1.2.2
        · exact heq
        · have h1 := h a'
          rw [Memory.read, if_neg (by omega), Memory.read, if_pos rfl, below rest _ a' hm.2 (by omega)] at h1
          exact absurd h1.symm hm'.1.2.2
      subst haa
      have hv : v = v' := by simpa [Memory.read] using h a
      subst hv
      rw [ih hm.2 hm'.2 ?_]
      intro b
      by_cases hb : b = a
      · subst hb
        rw [below rest _ b hm.2 (by omega), below rest' _ b hm'.2 (by omega)]
      · simpa [Memory.read, hb] using h b

end Sys2Proof.Machine
end

