-- ==== Sys2Proof/Laws/State.lean ====
section
/-! SUPPORT. What each update of the state does to each part of it: one lemma per part per update, so that no proof unfolds an update. -/

namespace Sys2Proof.Machine

@[simp] theorem Regs.get_set (g : Regs) (r q : Reg) (v : Word) : (g.set r v).get q = if q = r then v else g.get q := by
  cases r <;> cases q <;> rfl

variable (s : State) (r q : Reg) (a b v : Word) (k : ErrKind) (bytes : List Byte)

/-! ## A register written -/

@[simp] theorem State.reg_setReg : (s.setReg r v).reg q = if q = r then v else s.reg q := Regs.get_set s.regs r q v
@[simp] theorem State.dataAt_setReg : (s.setReg r v).dataAt a = s.dataAt a := rfl
@[simp] theorem State.codeAt_setReg : (s.setReg r v).codeAt a = s.codeAt a := rfl
@[simp] theorem State.code_setReg : (s.setReg r v).code = s.code := rfl
@[simp] theorem State.data_setReg : (s.setReg r v).data = s.data := rfl
@[simp] theorem State.status_setReg : (s.setReg r v).status = s.status := rfl
@[simp] theorem State.err_setReg : (s.setReg r v).err = s.err := rfl
@[simp] theorem State.faddr_setReg : (s.setReg r v).faddr = s.faddr := rfl
@[simp] theorem State.input_setReg : (s.setReg r v).input = s.input := rfl
@[simp] theorem State.output_setReg : (s.setReg r v).output = s.output := rfl

theorem Regs.set_set (g : Regs) (r : Reg) (u v : Word) : (g.set r u).set r v = g.set r v := by cases r <;> rfl
theorem Regs.set_get (g : Regs) (r : Reg) : g.set r (g.get r) = g := by cases r <;> rfl

/-- The later of two writes to one register stands. -/
@[simp] theorem State.setReg_setReg (u : Word) : (s.setReg r u).setReg r v = s.setReg r v := by
  simp [State.setReg, Regs.set_set]

/-- Writing back what a register holds changes nothing. -/
@[simp] theorem State.setReg_reg : s.setReg r (s.reg r) = s := by
  simp [State.setReg, State.reg, Regs.set_get]

/-! ## A data word written -/

@[simp] theorem State.dataAt_setData : (s.setData a v).dataAt b = if b = a then v else s.dataAt b := by
  simp [State.dataAt, State.setData, Memory.read_write, BitVec.toNat_inj]
@[simp] theorem State.reg_setData : (s.setData a v).reg q = s.reg q := rfl
@[simp] theorem State.codeAt_setData : (s.setData a v).codeAt b = s.codeAt b := rfl
@[simp] theorem State.code_setData : (s.setData a v).code = s.code := rfl
@[simp] theorem State.status_setData : (s.setData a v).status = s.status := rfl
@[simp] theorem State.err_setData : (s.setData a v).err = s.err := rfl
@[simp] theorem State.faddr_setData : (s.setData a v).faddr = s.faddr := rfl
@[simp] theorem State.input_setData : (s.setData a v).input = s.input := rfl
@[simp] theorem State.output_setData : (s.setData a v).output = s.output := rfl

/-! ## The input shortened -/

@[simp] theorem State.reg_setInput : (s.setInput bytes).reg q = s.reg q := rfl
@[simp] theorem State.dataAt_setInput : (s.setInput bytes).dataAt a = s.dataAt a := rfl
@[simp] theorem State.codeAt_setInput : (s.setInput bytes).codeAt a = s.codeAt a := rfl
@[simp] theorem State.code_setInput : (s.setInput bytes).code = s.code := rfl
@[simp] theorem State.data_setInput : (s.setInput bytes).data = s.data := rfl
@[simp] theorem State.status_setInput : (s.setInput bytes).status = s.status := rfl
@[simp] theorem State.err_setInput : (s.setInput bytes).err = s.err := rfl
@[simp] theorem State.faddr_setInput : (s.setInput bytes).faddr = s.faddr := rfl
@[simp] theorem State.input_setInput : (s.setInput bytes).input = bytes := rfl
@[simp] theorem State.output_setInput : (s.setInput bytes).output = s.output := rfl
@[simp] theorem State.setInput_setInput (bytes' : List Byte) : (s.setInput bytes').setInput bytes = s.setInput bytes := rfl
@[simp] theorem State.setInput_input : s.setInput s.input = s := rfl

/-! ## The output extended -/

@[simp] theorem State.reg_emit : (s.emit bytes).reg q = s.reg q := rfl
@[simp] theorem State.dataAt_emit : (s.emit bytes).dataAt a = s.dataAt a := rfl
@[simp] theorem State.codeAt_emit : (s.emit bytes).codeAt a = s.codeAt a := rfl
@[simp] theorem State.code_emit : (s.emit bytes).code = s.code := rfl
@[simp] theorem State.data_emit : (s.emit bytes).data = s.data := rfl
@[simp] theorem State.status_emit : (s.emit bytes).status = s.status := rfl
@[simp] theorem State.err_emit : (s.emit bytes).err = s.err := rfl
@[simp] theorem State.faddr_emit : (s.emit bytes).faddr = s.faddr := rfl
@[simp] theorem State.input_emit : (s.emit bytes).input = s.input := rfl
@[simp] theorem State.output_emit : (s.emit bytes).output = s.output ++ bytes := rfl

/-! ## A fault taken, and a halt -/

@[simp] theorem State.reg_takeFault : (s.takeFault k a).reg q = s.reg q := rfl
@[simp] theorem State.dataAt_takeFault : (s.takeFault k a).dataAt b = s.dataAt b := rfl
@[simp] theorem State.codeAt_takeFault : (s.takeFault k a).codeAt b = s.codeAt b := rfl
@[simp] theorem State.code_takeFault : (s.takeFault k a).code = s.code := rfl
@[simp] theorem State.data_takeFault : (s.takeFault k a).data = s.data := rfl
@[simp] theorem State.status_takeFault : (s.takeFault k a).status = .faulted := rfl
@[simp] theorem State.err_takeFault : (s.takeFault k a).err = k := rfl
@[simp] theorem State.faddr_takeFault : (s.takeFault k a).faddr = a := rfl
@[simp] theorem State.input_takeFault : (s.takeFault k a).input = s.input := rfl
@[simp] theorem State.output_takeFault : (s.takeFault k a).output = s.output := rfl

@[simp] theorem State.reg_halt : s.halt.reg q = s.reg q := rfl
@[simp] theorem State.dataAt_halt : s.halt.dataAt a = s.dataAt a := rfl
@[simp] theorem State.code_halt : s.halt.code = s.code := rfl
@[simp] theorem State.data_halt : s.halt.data = s.data := rfl
@[simp] theorem State.status_halt : s.halt.status = .halted := rfl
@[simp] theorem State.err_halt : s.halt.err = s.err := rfl
@[simp] theorem State.faddr_halt : s.halt.faddr = s.faddr := rfl
@[simp] theorem State.input_halt : s.halt.input = s.input := rfl
@[simp] theorem State.output_halt : s.halt.output = s.output := rfl

/-! ## The load -/

variable (ws : List CodeWord)

@[simp] theorem State.status_loaded : (s.loaded ws bytes).status = .running := rfl
@[simp] theorem State.err_loaded : (s.loaded ws bytes).err = .none := rfl
@[simp] theorem State.faddr_loaded : (s.loaded ws bytes).faddr = s.faddr := rfl
@[simp] theorem State.input_loaded : (s.loaded ws bytes).input = bytes := rfl
@[simp] theorem State.output_loaded : (s.loaded ws bytes).output = [] := rfl
@[simp] theorem State.dataAt_loaded : (s.loaded ws bytes).dataAt a = 0 := rfl

theorem State.codeAt_loaded : (s.loaded ws bytes).codeAt a = ws.getD a.toNat 0 := by
  simp [State.codeAt, State.loaded, Memory.read_ofWords]

/-! ## The canonical form of the stores is kept -/

theorem State.wf_setData (h : Memory.wf s.data = true) : Memory.wf (s.setData a v).data = true :=
  Memory.wf_write h a.isLt

theorem State.wf_loaded (h : ws.length ≤ 65535) :
    Memory.wf (s.loaded ws bytes).code = true ∧ Memory.wf (s.loaded ws bytes).data = true :=
  ⟨Memory.wf_ofWords ws (by omega), rfl⟩

theorem State.reset_wf : Memory.wf State.reset.code = true ∧ Memory.wf State.reset.data = true := ⟨rfl, rfl⟩

end Sys2Proof.Machine
end

