-- ==== Sys2Proof/Laws/Ops.lean ====
section
/-! SUPPORT. One law per shared operation: what it answers, and what it does to the state. A proof cites these and does not unfold the
operation. -/

namespace Sys2Proof.Machine

variable {α β : Type} (s : State)

/-! ## Sub-steps -/

@[simp] theorem M.bind_apply (x : M α) (f : α → M β) :
    (x >>= f) s = match x s with | .ok a t => f a t | .error k t => .error k t := by
  cases h : x s <;> simp only [bind, EStateM.bind, h]
@[simp] theorem M.map_apply (x : M α) (f : α → β) :
    (f <$> x) s = match x s with | .ok a t => .ok (f a) t | .error k t => .error k t := by
  cases h : x s <;> simp only [Functor.map, EStateM.map, h]
@[simp] theorem M.pure_apply (a : α) : (pure a : M α) s = .ok a s := rfl
@[simp] theorem raise_apply (k : ErrKind) : (raise k : M α) s = .error k s := rfl
@[simp] theorem look_apply (f : State → α) : look f s = .ok (f s) s := rfl
@[simp] theorem update_apply (f : State → State) : update f s = .ok () (f s) := rfl
@[simp] theorem outWrite_apply (bytes : List Byte) : outWrite bytes s = .ok () (s.emit bytes) := rfl
@[simp] theorem inPeek_apply : inPeek s = .ok s.input.head? s := rfl
@[simp] theorem calcAddress_apply (r : Reg) (d : Word) : calcAddress r d s = .ok (s.calcAddress r d) s := rfl

theorem raiseIf_apply (k : ErrKind) (c : Prop) [Decidable c] : raiseIf k c s = if c then .error k s else .ok () s := rfl
@[simp] theorem raiseIf_true (k : ErrKind) {c : Prop} [Decidable c] (h : c) : raiseIf k c s = .error k s := if_pos h
@[simp] theorem raiseIf_false (k : ErrKind) {c : Prop} [Decidable c] (h : ¬ c) : raiseIf k c s = .ok () s := if_neg h

/-- An instruction whose sub-steps all complete answers what they leave. -/
theorem conclude_ok {x : M Unit} {s t : State} (h : x s = .ok () t) : conclude x s = .next t := by simp [conclude, h]

/-- An instruction one of whose sub-steps raises takes that fault. -/
theorem conclude_error {x : M Unit} {s t : State} {k : ErrKind} (h : x s = .error k t) :
    conclude x s = .next (t.takeFault k (t.reg .cp - 1)) := by simp [conclude, h]

/-- Every instruction made of sub-steps answers a next state: what they leave, or that with the fault taken. -/
theorem conclude_cases (x : M Unit) (s : State) :
    (∃ t, x s = .ok () t ∧ conclude x s = .next t) ∨
      ∃ k t, x s = .error k t ∧ conclude x s = .next (t.takeFault k (t.reg .cp - 1)) := by
  unfold conclude
  cases h : x s with
  | ok u t => exact .inl ⟨t, rfl, rfl⟩
  | error k t => exact .inr ⟨k, t, rfl, rfl⟩

/-! ## What holds of a sub-step whichever way it ends -/

/-- `x` relates every state it runs on to the state it leaves, whether it completes or raises. -/
def Keeps (P : State → State → Prop) (x : M α) : Prop :=
  ∀ s, match x s with | .ok _ t => P s t | .error _ t => P s t

variable {P : State → State → Prop}

theorem keeps_bind (trans : ∀ a b c, P a b → P b c → P a c) {x : M α} {f : α → M β} (hx : Keeps P x) (hf : ∀ a, Keeps P (f a)) :
    Keeps P (x >>= f) := by
  intro s
  have h := hx s
  simp only [M.bind_apply]
  cases hxs : x s with
  | error k t => simpa [hxs] using h
  | ok a t =>
    have h2 := hf a t
    rw [hxs] at h
    simp only
    cases hft : f a t with
    | ok b u => rw [hft] at h2; exact trans _ _ _ h h2
    | error k u => rw [hft] at h2; exact trans _ _ _ h h2

theorem keeps_pure (refl : ∀ a, P a a) (a : α) : Keeps P (pure a : M α) := fun s => refl s
theorem keeps_raise (refl : ∀ a, P a a) (k : ErrKind) : Keeps P (raise k : M α) := fun s => refl s
theorem keeps_look (refl : ∀ a, P a a) (f : State → α) : Keeps P (look f) := fun s => refl s
theorem keeps_update {f : State → State} (h : ∀ s, P s (f s)) : Keeps P (update f) := h
theorem keeps_raiseIf (refl : ∀ a, P a a) (k : ErrKind) (c : Prop) [Decidable c] : Keeps P (raiseIf k c) := by
  intro s
  rw [raiseIf_apply]
  split <;> rename_i h <;> split at h <;> cases h <;> exact refl s

/-- What an instruction's sub-steps keep, the instruction keeps, if taking a fault keeps it. -/
theorem keeps_conclude {x : M Unit} (hx : Keeps P x) (trans : ∀ a b c, P a b → P b c → P a c)
    (fault : ∀ s k a, P s (s.takeFault k a)) {s t : State} (h : conclude x s = .next t) : P s t := by
  have hs := hx s
  rcases conclude_cases x s with ⟨u, hu, hc⟩ | ⟨k, u, hu, hc⟩ <;> rw [hc] at h <;> cases h <;> rw [hu] at hs
  · exact hs
  · exact trans _ _ _ hs (fault _ _ _)

/-! ## Words that count -/

theorem toNat_add_ofNat (a : Word) (k : Nat) (h : a.toNat + k < 65536) : (a + BitVec.ofNat 16 k).toNat = a.toNat + k := by
  rw [BitVec.toNat_add, BitVec.toNat_ofNat, Nat.add_mod_mod]; exact Nat.mod_eq_of_lt h

theorem toNat_sub_ofNat (a : Word) (k : Nat) (h : k ≤ a.toNat) : (a - BitVec.ofNat 16 k).toNat = a.toNat - k := by
  have := a.isLt
  rw [BitVec.toNat_sub, BitVec.toNat_ofNat]; omega

theorem add_ofNat_inj {a : Word} {j k : Nat} (hj : j < 65536) (hk : k < 65536)
    (h : a + BitVec.ofNat 16 j = a + BitVec.ofNat 16 k) : j = k := by
  have h2 := congrArg BitVec.toNat (add_left_cancel h)
  simp only [BitVec.toNat_ofNat] at h2
  omega

theorem add_ofNat_add (a : Word) (j k : Nat) : a + BitVec.ofNat 16 j + BitVec.ofNat 16 k = a + BitVec.ofNat 16 (j + k) := by
  rw [add_assoc, BitVec.ofNat_add]

theorem sub_ofNat_sub (a : Word) (j k : Nat) : a - BitVec.ofNat 16 j - BitVec.ofNat 16 k = a - BitVec.ofNat 16 (j + k) := by
  rw [BitVec.ofNat_add, sub_sub]

/-! ## The stack, one word at a time -/

variable {s}

theorem popDiscard_empty (h : s.reg .st = 0) : popDiscard s = .error .stackUnderflow s := by
  simp [popDiscard, h]

theorem popDiscard_nonempty (h : s.reg .st ≠ 0) : popDiscard s = .ok () (s.setReg .st (s.reg .st - 1)) := by
  simp only [popDiscard, M.bind_apply, look_apply, raiseIf_false _ _ h, update_apply]

theorem popData_empty (h : s.reg .st = 0) : popData s = .error .stackUnderflow s := by
  simp [popData, popDiscard_empty h]

theorem popData_nonempty (h : s.reg .st ≠ 0) : popData s = .ok (s.below 0) (s.setReg .st (s.reg .st - 1)) := by
  simp [popData, popDiscard_nonempty h, State.below]

theorem pushData_full (v : Word) (h : s.reg .ht ≤ s.reg .st) : pushData v s = .error .stackOverflow s := by
  simp [pushData, h]

theorem pushData_room (v : Word) (h : s.reg .st < s.reg .ht) :
    pushData v s = .ok () ((s.setData (s.reg .st) v).setReg .st (s.reg .st + 1)) := by
  have h2 : ¬ s.reg .ht ≤ s.reg .st := BitVec.not_le.mpr h
  simp [pushData, h2]

/-! ## Checks -/

theorem checkDataBounds_gap {a : Word} (h : s.reg .st ≤ a ∧ a ≤ s.reg .ht) :
    checkDataBounds a s = .error .dataAccessViolation s := by
  simp [checkDataBounds, h.1, h.2]

theorem checkDataBounds_clear {a : Word} (h : ¬ (s.reg .st ≤ a ∧ a ≤ s.reg .ht)) : checkDataBounds a s = .ok () s := by
  simp only [checkDataBounds, M.bind_apply, look_apply, raiseIf_apply, if_neg h]

theorem jumpTo_beyond {t : Word} (h : s.reg .ct ≤ t) : jumpTo t s = .error .codeAccessViolation s := by
  simp [jumpTo, h]

theorem jumpTo_inside {t : Word} (h : t < s.reg .ct) : jumpTo t s = .ok () (s.setReg .cp t) := by
  have h2 : ¬ s.reg .ct ≤ t := BitVec.not_le.mpr h
  simp [jumpTo, h2]

theorem fetch_beyond (h : s.reg .ct ≤ s.reg .cp) : fetch s = .error .codeAccessViolation s := by
  simp [fetch, h]

theorem fetch_inside (h : s.reg .cp < s.reg .ct) : fetch s = .ok (s.codeAt (s.reg .cp)) (s.setReg .cp (s.reg .cp + 1)) := by
  have h2 : ¬ s.reg .ct ≤ s.reg .cp := BitVec.not_le.mpr h
  simp [fetch, h2]

theorem inRead_end (h : s.input = []) : inRead s = .error .ioFault s := by simp [inRead, h]

theorem inRead_byte {b : Byte} {rest : List Byte} (h : s.input = b :: rest) : inRead s = .ok b (s.setInput rest) := by
  simp [inRead, h]

/-! ## Blocks popped -/

theorem ne_zero_of_top {s : State} {n : Nat} (h : n + 1 ≤ s.top) : s.reg .st ≠ 0 := by
  intro h0
  simp [State.top, h0] at h

theorem top_setReg_sub_one {s : State} (h : s.reg .st ≠ 0) : (s.setReg .st (s.reg .st - 1)).top = s.top - 1 := by
  have h1 : 1 ≤ (s.reg .st).toNat := by
    rcases Nat.eq_zero_or_pos (s.reg .st).toNat with h0 | h0
    · exact absurd (BitVec.eq_of_toNat_eq (by simpa using h0)) h
    · exact h0
  simpa [State.top] using toNat_sub_ofNat (s.reg .st) 1 h1

theorem below_setReg_sub_one {s : State} (k : Nat) : (s.setReg .st (s.reg .st - 1)).below k = s.below (k + 1) := by
  have := sub_ofNat_sub (s.reg .st) 1 (k + 1)
  simp only [State.below, State.reg_setReg, if_true, State.dataAt_setReg, BitVec.ofNat_eq_ofNat]
  rw [show k + 1 + 1 = 1 + (k + 1) by omega, ← this]

/-- The top `n` words, top first. -/
def State.topWords (s : State) (n : Nat) : List Word := (List.range n).map s.below

@[simp] theorem State.length_topWords (s : State) (n : Nat) : (s.topWords n).length = n := by simp [State.topWords]

theorem topWords_succ {s : State} (n : Nat) :
    s.topWords (n + 1) = s.below 0 :: (s.setReg .st (s.reg .st - 1)).topWords n := by
  simp only [State.topWords, List.range_succ_eq_map, List.map_cons, List.map_map]
  congr 1
  apply List.map_congr_left
  intro k _
  exact (below_setReg_sub_one k).symm

/-- Popping `n` words that are there. -/
theorem popWords_enough {n : Nat} {s : State} (h : n ≤ s.top) :
    popWords n s = .ok (s.topWords n) (s.setReg .st (s.reg .st - BitVec.ofNat 16 n)) := by
  induction n generalizing s with
  | zero => simp [popWords, State.topWords]
  | succ n ih =>
    have h0 := ne_zero_of_top h
    simp only [popWords, M.bind_apply, popData_nonempty h0]
    rw [ih (by rw [top_setReg_sub_one h0]; omega)]
    simp only [M.pure_apply, State.setReg_setReg, State.reg_setReg, if_true, topWords_succ, BitVec.ofNat_eq_ofNat]
    rw [show n + 1 = 1 + n by omega, ← sub_ofNat_sub]

/-- Popping more words than there are empties the stack and raises. -/
theorem popWords_short {n : Nat} {s : State} (h : s.top < n) : popWords n s = .error .stackUnderflow (s.setReg .st 0) := by
  induction n generalizing s with
  | zero => omega
  | succ n ih =>
    by_cases h0 : s.reg .st = 0
    · have : s.setReg .st 0 = s := by rw [← h0]; exact s.setReg_reg .st
      simp only [popWords, M.bind_apply, popData_empty h0, this]
    · simp only [popWords, M.bind_apply, popData_nonempty h0]
      have h1 : 0 < s.top := Nat.pos_of_ne_zero fun h2 => h0 (BitVec.eq_of_toNat_eq (by simpa [State.top] using h2))
      rw [ih (by rw [top_setReg_sub_one h0]; omega)]
      simp

theorem discardWords_enough {n : Nat} {s : State} (h : n ≤ s.top) :
    discardWords n s = .ok () (s.setReg .st (s.reg .st - BitVec.ofNat 16 n)) := by
  induction n generalizing s with
  | zero => simp [discardWords]
  | succ n ih =>
    have h0 := ne_zero_of_top h
    simp only [discardWords, M.bind_apply, popDiscard_nonempty h0]
    rw [ih (by rw [top_setReg_sub_one h0]; omega)]
    simp only [State.setReg_setReg, State.reg_setReg, if_true, BitVec.ofNat_eq_ofNat]
    rw [show n + 1 = 1 + n by omega, ← sub_ofNat_sub]

theorem discardWords_short {n : Nat} {s : State} (h : s.top < n) :
    discardWords n s = .error .stackUnderflow (s.setReg .st 0) := by
  induction n generalizing s with
  | zero => omega
  | succ n ih =>
    by_cases h0 : s.reg .st = 0
    · have : s.setReg .st 0 = s := by rw [← h0]; exact s.setReg_reg .st
      simp only [discardWords, M.bind_apply, popDiscard_empty h0, this]
    · simp only [discardWords, M.bind_apply, popDiscard_nonempty h0]
      have h1 : 0 < s.top := Nat.pos_of_ne_zero fun h2 => h0 (BitVec.eq_of_toNat_eq (by simpa [State.top] using h2))
      rw [ih (by rw [top_setReg_sub_one h0]; omega)]
      simp

/-! ## Blocks pushed and stored -/

/-- Words written to consecutive addresses. -/
def State.setBlock (s : State) (a : Word) : List Word → State
  | [] => s
  | v :: vs => (s.setData a v).setBlock (a + 1) vs

section SetBlock
variable (s : State) (a : Word) (vs : List Word)

@[simp] theorem State.reg_setBlock (r : Reg) : (s.setBlock a vs).reg r = s.reg r := by
  induction vs generalizing s a with
  | nil => rfl
  | cons v vs ih => rw [State.setBlock, ih]; rfl
@[simp] theorem State.code_setBlock : (s.setBlock a vs).code = s.code := by
  induction vs generalizing s a with
  | nil => rfl
  | cons v vs ih => rw [State.setBlock, ih]; rfl
@[simp] theorem State.status_setBlock : (s.setBlock a vs).status = s.status := by
  induction vs generalizing s a with
  | nil => rfl
  | cons v vs ih => rw [State.setBlock, ih]; rfl
@[simp] theorem State.err_setBlock : (s.setBlock a vs).err = s.err := by
  induction vs generalizing s a with
  | nil => rfl
  | cons v vs ih => rw [State.setBlock, ih]; rfl
@[simp] theorem State.faddr_setBlock : (s.setBlock a vs).faddr = s.faddr := by
  induction vs generalizing s a with
  | nil => rfl
  | cons v vs ih => rw [State.setBlock, ih]; rfl
@[simp] theorem State.input_setBlock : (s.setBlock a vs).input = s.input := by
  induction vs generalizing s a with
  | nil => rfl
  | cons v vs ih => rw [State.setBlock, ih]; rfl
@[simp] theorem State.output_setBlock : (s.setBlock a vs).output = s.output := by
  induction vs generalizing s a with
  | nil => rfl
  | cons v vs ih => rw [State.setBlock, ih]; rfl

theorem State.setBlock_setReg (r : Reg) (v : Word) : (s.setReg r v).setBlock a vs = (s.setBlock a vs).setReg r v := by
  induction vs generalizing s a with
  | nil => rfl
  | cons u vs ih => rw [State.setBlock, State.setBlock, ← ih]; rfl

variable {s a vs}

theorem State.dataAt_setBlock_outside {b : Word} (h : ¬ InBlock a vs.length b) : (s.setBlock a vs).dataAt b = s.dataAt b := by
  induction vs generalizing s a with
  | nil => rfl
  | cons v vs ih =>
    have hne : b ≠ a := fun hb => h ⟨0, by simp, by simp [hb]⟩
    rw [State.setBlock, ih, State.dataAt_setData, if_neg hne]
    rintro ⟨k, hk, rfl⟩
    exact h ⟨k + 1, by simpa using hk, by rw [show k + 1 = 1 + k by omega, ← add_ofNat_add]; rfl⟩

theorem State.dataAt_setBlock_inside {k : Nat} (hk : k < vs.length) (hn : vs.length ≤ 65536) :
    (s.setBlock a vs).dataAt (a + BitVec.ofNat 16 k) = vs[k] := by
  induction vs generalizing s a k with
  | nil => simp at hk
  | cons v vs ih =>
    rw [State.setBlock]
    simp only [List.length_cons] at hk hn
    cases k with
    | zero =>
      rw [State.dataAt_setBlock_outside]
      · simp
      · rintro ⟨j, hj, hj2⟩
        rw [show (a + 1 : Word) = a + BitVec.ofNat 16 1 from rfl, add_ofNat_add] at hj2
        have := add_ofNat_inj (by omega) (by omega) hj2
        omega
    | succ k =>
      have := ih (s := s.setData a v) (a := a + BitVec.ofNat 16 1) (k := k) (by omega) (by omega)
      rw [add_ofNat_add, Nat.add_comm 1 k] at this
      exact this

end SetBlock

/-- Pushing words there is room for. -/
theorem pushWords_room {vs : List Word} {s : State} (h : s.top + vs.length ≤ (s.reg .ht).toNat) :
    pushWords vs s = .ok () ((s.setBlock (s.reg .st) vs).setReg .st (s.reg .st + BitVec.ofNat 16 vs.length)) := by
  induction vs generalizing s with
  | nil => simp [pushWords, State.setBlock]
  | cons v vs ih =>
    simp only [List.length_cons] at h
    have hlt : s.reg .st < s.reg .ht := BitVec.lt_def.mpr (by unfold State.top at h; omega)
    simp only [pushWords, M.bind_apply, pushData_room v hlt]
    have htop : ((s.setData (s.reg .st) v).setReg .st (s.reg .st + 1)).top = s.top + 1 := by
      have := (s.reg .ht).isLt
      have h2 := toNat_add_ofNat (s.reg .st) 1 (by unfold State.top at h; omega)
      simpa [State.top] using h2
    rw [ih (by rw [htop]; simpa [Nat.add_assoc, Nat.add_comm 1] using h)]
    simp only [State.reg_setReg, if_true, State.setBlock_setReg, State.setReg_setReg, State.setBlock, List.length_cons, BitVec.ofNat_eq_ofNat]
    rw [show vs.length + 1 = 1 + vs.length by omega, ← add_ofNat_add]

/-- Pushing more words than there is room for, the heap top pinned: the words that fit stay, and the next push raises. -/
theorem pushWords_overflow {vs : List Word} {s : State} (hp : s.HeapPinned) (h : 65535 < s.top + vs.length) :
    pushWords vs s = .error .stackOverflow ((s.setBlock (s.reg .st) (vs.take (65535 - s.top))).setReg .st 0xFFFF) := by
  have hst := (s.reg .st).isLt
  induction vs generalizing s with
  | nil =>
    simp only [List.length_nil] at h
    unfold State.top at h
    omega
  | cons v vs ih =>
    simp only [List.length_cons] at h
    by_cases hf : s.reg .st = 0xFFFF
    · have htop : 65535 - s.top = 0 := by simp [State.top, hf]
      have hs : s.setReg .st 0xFFFF = s := by rw [← hf]; exact s.setReg_reg .st
      have hle : s.reg .ht ≤ s.reg .st := by rw [hf, hp]; exact BitVec.le_refl _
      simp only [pushWords, M.bind_apply, pushData_full v hle, htop, List.take_zero, State.setBlock, hs]
    · have hlt : s.top < 65535 := by
        have : (s.reg .st).toNat ≠ 65535 := fun h => hf (BitVec.eq_of_toNat_eq (by simpa using h))
        unfold State.top
        omega
      have htop : ((s.setData (s.reg .st) v).setReg .st (s.reg .st + 1)).top = s.top + 1 := by
        have h2 := toNat_add_ofNat (s.reg .st) 1 (by unfold State.top at hlt; omega)
        simpa [State.top] using h2
      have hroom : s.reg .st < s.reg .ht := by rw [hp, BitVec.lt_def]; exact hlt
      have hpinned : ((s.setData (s.reg .st) v).setReg .st (s.reg .st + 1)).HeapPinned := hp
      simp only [pushWords, M.bind_apply, pushData_room v hroom]
      rw [ih hpinned (by omega) (BitVec.isLt _), htop, show 65535 - s.top = (65535 - (s.top + 1)) + 1 by omega]
      simp only [State.reg_setReg, if_true, State.setBlock_setReg, State.setReg_setReg, List.take_succ_cons, State.setBlock]

/-- Storing words to addresses that lie below the stack top. -/
theorem storeWords_clear {vs : List Word} {s : State} {a : Word} (h : vs = [] ∨ a.toNat + vs.length ≤ s.top) :
    storeWords a vs s = .ok () (s.setBlock a vs) := by
  induction vs generalizing s a with
  | nil => rfl
  | cons v vs ih =>
    have h : a.toNat + (vs.length + 1) ≤ s.top := by simpa using h
    have hst := (s.reg .st).isLt
    have hclear : ¬ (s.reg .st ≤ a ∧ a ≤ s.reg .ht) := by
      rintro ⟨h1, _⟩
      rw [BitVec.le_def] at h1
      unfold State.top at h
      omega
    simp only [storeWords, M.bind_apply, checkDataBounds_clear hclear, update_apply, State.setBlock]
    apply ih
    by_cases hv : vs = []
    · exact .inl hv
    · right
      have : 1 ≤ vs.length := List.length_pos_of_ne_nil hv
      have h2 := toNat_add_ofNat a 1 (by unfold State.top at h; omega)
      rw [show (a + 1 : Word) = a + BitVec.ofNat 16 1 from rfl, h2]
      simp only [State.top, State.reg_setData] at h ⊢
      omega

/-- Storing words from below the stack top into the free gap, the heap top pinned: the words below it are written, and the first
check beyond it raises (41_load_store.md R94). -/
theorem storeWords_gap {vs : List Word} {s : State} {a : Word} (hp : s.HeapPinned) (h1 : a.toNat < s.top) (h2 : s.top < a.toNat + vs.length) :
    storeWords a vs s = .error .dataAccessViolation (s.setBlock a (vs.take (s.top - a.toNat))) := by
  induction vs generalizing s a with
  | nil =>
    simp only [List.length_nil] at h2
    omega
  | cons v vs ih =>
    simp only [List.length_cons] at h2
    have hst := (s.reg .st).isLt
    have hclear : ¬ (s.reg .st ≤ a ∧ a ≤ s.reg .ht) := by
      rintro ⟨h, _⟩
      rw [BitVec.le_def] at h
      unfold State.top at h1
      omega
    have ha1 : (a + 1 : Word).toNat = a.toNat + 1 := toNat_add_ofNat a 1 (by unfold State.top at h1; omega)
    simp only [storeWords, M.bind_apply, checkDataBounds_clear hclear, update_apply]
    rw [show s.top - a.toNat = (s.top - (a.toNat + 1)) + 1 by omega, List.take_succ_cons, State.setBlock]
    by_cases hc : a.toNat + 1 < s.top
    · have := ih (s := s.setData a v) (a := a + 1) hp (ha1 ▸ hc) (by rw [ha1]; exact lt_of_lt_of_eq h2 (by omega))
      rw [this, ha1]
      rfl
    · obtain ⟨w, ws, rfl⟩ : ∃ w ws, vs = w :: ws := List.exists_cons_of_length_pos (by omega)
      have hgap : (s.setData a v).reg .st ≤ a + 1 ∧ a + 1 ≤ (s.setData a v).reg .ht := by
        simp only [State.reg_setData]
        refine ⟨?_, ?_⟩
        · rw [BitVec.le_def, ha1]
          unfold State.top at hc
          omega
        · rw [hp, BitVec.le_def]
          have := (a + 1).isLt
          simp only [BitVec.reduceToNat]
          omega
      rw [show s.top - (a.toNat + 1) = 0 by omega, List.take_zero, State.setBlock]
      simp only [storeWords, M.bind_apply, checkDataBounds_gap hgap]

/-- Loading a block that starts below the stack top, where there is room: word by word, so that a word past the old stack top is one this
very block has pushed (41_load_store.md R90). -/
theorem loadBlock_room {n : Nat} {s : State} {a : Word} (ha : n = 0 ∨ a < s.reg .st) (hn : s.top + n ≤ (s.reg .ht).toNat) :
    ∃ t, loadBlock a n s = .ok () t ∧ t.reg .st = s.reg .st + BitVec.ofNat 16 n ∧ Frame [.st] (InBlock (s.reg .st) n) s t ∧ Quiet s t ∧
      ∀ k < n, t.dataAt (s.reg .st + BitVec.ofNat 16 k) = t.dataAt (a + BitVec.ofNat 16 k) := by
  induction n generalizing s a with
  | zero => exact ⟨s, rfl, by simp, ⟨fun _ _ => rfl, fun _ _ => rfl, rfl⟩, ⟨⟨rfl, rfl, rfl⟩, rfl, rfl⟩, by simp⟩
  | succ n ih =>
    have ha : a < s.reg .st := by simpa using ha
    have hlt : s.reg .st < s.reg .ht := BitVec.lt_def.mpr (by unfold State.top at hn; omega)
    have hht := (s.reg .ht).isLt
    have hclear : ¬ (s.reg .st ≤ a ∧ a ≤ s.reg .ht) := fun h => BitVec.not_le.mpr ha h.1
    have hst1 : (s.reg .st + 1 : Word).toNat = (s.reg .st).toNat + 1 :=
      toNat_add_ofNat (s.reg .st) 1 (by unfold State.top at hn; omega)
    have ha1 : (a + 1 : Word).toNat = a.toNat + 1 := toNat_add_ofNat a 1 (by rw [BitVec.lt_def] at ha; unfold State.top at hn; omega)
    obtain ⟨t, ht, hreg, ⟨hregs, hdata, hcode⟩, hquiet, hcopy⟩ :=
      ih (s := (s.setData (s.reg .st) (s.dataAt a)).setReg .st (s.reg .st + 1)) (a := a + 1)
        (.inr (by
          rw [BitVec.lt_def] at ha ⊢
          simp only [State.reg_setReg, if_true]
          omega))
        (by
          simp only [State.top, State.reg_setReg, if_true, State.reg_setData, reduceCtorEq, if_false, hst1]
          unfold State.top at hn
          omega)
    simp only [State.reg_setReg, if_true, State.dataAt_setReg, State.dataAt_setData, State.reg_setData, State.code_setReg,
      State.code_setData] at hreg hregs hdata hcode hcopy
    have step : ∀ (b : Word) (k : Nat), b + 1 + BitVec.ofNat 16 k = b + BitVec.ofNat 16 (k + 1) := by
      intro b k
      rw [Nat.add_comm k 1, ← add_ofNat_add]
      rfl
    have hself : t.dataAt (s.reg .st) = s.dataAt a := by
      rw [hdata _ ?_, if_pos rfl]
      rintro ⟨k, hk, he⟩
      have hcast : s.reg .st + BitVec.ofNat 16 0 = s.reg .st + BitVec.ofNat 16 (k + 1) := by
        rw [← step, ← he]; simp
      unfold State.top at hn
      have := add_ofNat_inj (by omega) (by omega) hcast
      omega
    have hsrc : t.dataAt a = s.dataAt a := by
      by_cases hk : InBlock (s.reg .st + 1) n a
      · obtain ⟨k, hk, he⟩ := hk
        have h1 : a.toNat = (s.reg .st).toNat + (k + 1) := by
          rw [he, step]
          exact toNat_add_ofNat _ _ (by unfold State.top at hn; omega)
        rw [BitVec.lt_def] at ha
        omega
      · rw [hdata a hk, if_neg]
        intro h
        rw [h] at ha
        exact absurd ha (BitVec.lt_irrefl _)
    refine ⟨t, ?_, ?_, ⟨fun r hr => ?_, fun b hb => ?_, hcode⟩, hquiet, fun k hk => ?_⟩
    · simp only [loadBlock, M.bind_apply, checkDataBounds_clear hclear, look_apply, pushData_room _ hlt]
      exact ht
    · rw [hreg, step]
    · have := hregs r hr
      rw [if_neg (by simpa using hr)] at this
      exact this
    · rw [hdata b, if_neg]
      · rintro rfl
        exact hb ⟨0, by omega, by simp⟩
      · rintro ⟨k, hk, he⟩
        exact hb ⟨k + 1, by omega, by rw [he, step]⟩
    · cases k with
      | zero => simpa using hself.trans hsrc.symm
      | succ k =>
        have := hcopy k (by omega)
        rwa [step, step] at this

/-- A block loaded in two parts. -/
theorem loadBlock_add (m n : Nat) (a : Word) : loadBlock a (m + n) = loadBlock a m >>= fun _ => loadBlock (a + BitVec.ofNat 16 m) n := by
  induction m generalizing a with
  | zero =>
    funext s
    simp [loadBlock]
  | succ m ih =>
    have hnext : a + 1 + BitVec.ofNat 16 m = a + BitVec.ofNat 16 (m + 1) := by
      rw [Nat.add_comm m 1]
      exact add_ofNat_add a 1 m
    rw [show m + 1 + n = (m + n) + 1 by omega]
    simp only [loadBlock, ih, hnext, bind_assoc]

/-- Loading a block that starts below the stack top, where there is not room for all of it, the heap top pinned: the words that fit are
loaded as `loadBlock_room` says, and the next push raises. -/
theorem loadBlock_overflow {n : Nat} {s : State} {a : Word} (hp : s.HeapPinned) (ha : a < s.reg .st) (hn : 65535 < s.top + n) :
    ∃ t, loadBlock a n s = .error .stackOverflow t ∧ t.reg .st = 0xFFFF ∧ Frame [.st] (InBlock (s.reg .st) (65535 - s.top)) s t ∧ Quiet s t ∧
      ∀ k < 65535 - s.top, t.dataAt (s.reg .st + BitVec.ofNat 16 k) = t.dataAt (a + BitVec.ofNat 16 k) := by
  have hst := (s.reg .st).isLt
  have htop : s.top ≤ 65535 := by unfold State.top; omega
  have hht : (s.reg .ht).toNat = 65535 := by rw [hp]; rfl
  obtain ⟨t, ht, hreg, hframe, hquiet, hcopy⟩ := loadBlock_room (n := 65535 - s.top) (s := s) (.inr ha) (by omega)
  have hfull : t.reg .st = 0xFFFF := by
    rw [hreg]
    apply BitVec.eq_of_toNat_eq
    rw [toNat_add_ofNat _ _ (by unfold State.top; omega)]
    unfold State.top at htop ⊢
    simp only [BitVec.reduceToNat]
    omega
  refine ⟨t, ?_, hfull, hframe, hquiet, hcopy⟩
  obtain ⟨j, hj⟩ : ∃ j, n = (65535 - s.top) + (j + 1) := ⟨n - (65535 - s.top) - 1, by omega⟩
  have hpinned : t.reg .ht = 0xFFFF := (hframe.1 .ht (by decide)).trans hp
  have hbelow : a + BitVec.ofNat 16 (65535 - s.top) < t.reg .st := by
    rw [BitVec.lt_def] at ha
    rw [hfull, BitVec.lt_def, toNat_add_ofNat _ _ (by unfold State.top; omega)]
    unfold State.top at htop ⊢
    simp only [BitVec.reduceToNat]
    omega
  have hclear : ¬ (t.reg .st ≤ a + BitVec.ofNat 16 (65535 - s.top) ∧ a + BitVec.ofNat 16 (65535 - s.top) ≤ t.reg .ht) :=
    fun h => BitVec.not_le.mpr hbelow h.1
  have hle : t.reg .ht ≤ t.reg .st := by rw [hpinned, hfull]; exact BitVec.le_refl _
  rw [hj, loadBlock_add]
  simp only [M.bind_apply, ht, loadBlock, checkDataBounds_clear hclear, look_apply, pushData_full _ hle]

/-! ## Lines -/

/-- Reading a line that is there. -/
theorem readLine_line {line rest : List Byte} {s : State} (hin : s.input = line ++ lineFeed :: rest) (h : lineFeed ∉ line) :
    readLine s.input s = .ok () (s.setInput rest) := by
  induction line generalizing s with
  | nil =>
    simp only [List.nil_append] at hin
    rw [hin]
    simp [readLine, inRead_byte hin]
  | cons b line ih =>
    rw [List.mem_cons, not_or] at h
    simp only [List.cons_append] at hin
    have := ih (s := s.setInput (line ++ lineFeed :: rest)) rfl h.2
    rw [hin]
    simp only [readLine, M.bind_apply, inRead_byte hin, if_neg (Ne.symm h.1)]
    simpa using this

/-- Reading a line that the input ends before consumes all of it and raises. -/
theorem readLine_none {s : State} (h : lineFeed ∉ s.input) : readLine s.input s = .error .ioFault (s.setInput []) := by
  generalize hin : s.input = bytes at h
  induction bytes generalizing s with
  | nil =>
    have : s.setInput [] = s := by rw [← hin]; rfl
    simp [readLine, inRead_end hin, this]
  | cons b rest ih =>
    rw [List.mem_cons, not_or] at h
    have := ih (s := s.setInput rest) rfl h.2
    simp only [readLine, M.bind_apply, inRead_byte hin, if_neg (Ne.symm h.1)]
    simpa using this

end Sys2Proof.Machine
end

