-- ==== Sys2Proof/Laws/Frame.lean ====
section
/-! SUPPORT. Said once: what every instruction can do to the state. A relation closed under the few updates the operations make holds
between the state an instruction runs on and the state it answers. -/

namespace Sys2Proof.Machine

/-- A relation on states that every update of the stack, of the data store and of the streams keeps. -/
structure StackClosed (P : State → State → Prop) : Prop where
  refl : ∀ s, P s s
  trans : ∀ s t u, P s t → P t u → P s u
  st : ∀ s v, P s (s.setReg .st v)
  data : ∀ s a v, P s (s.setData a v)
  input : ∀ s rest, P s (s.setInput rest)
  output : ∀ s bytes, P s (s.emit bytes)

/-- A relation that the control updates and taking a fault keep as well: every update but that of `HALT`. -/
structure RunClosed (P : State → State → Prop) : Prop extends StackClosed P where
  lb : ∀ s v, P s (s.setReg .lb v)
  cp : ∀ s v, P s (s.setReg .cp v)
  fault : ∀ s k a, P s (s.takeFault k a)

/-- A relation that halting keeps as well. -/
structure StepClosed (P : State → State → Prop) : Prop extends RunClosed P where
  halt : ∀ s : State, P s s.halt

variable {P : State → State → Prop}

section Operations
variable (h : StackClosed P)
include h

theorem keeps_popDiscard : Keeps P popDiscard :=
  keeps_bind h.trans (keeps_look h.refl _) fun _ =>
    keeps_bind h.trans (keeps_raiseIf h.refl _ _) fun _ => keeps_update fun s => h.st s _

theorem keeps_popData : Keeps P popData :=
  keeps_bind h.trans (keeps_popDiscard h) fun _ => keeps_bind h.trans (keeps_look h.refl _) fun _ => keeps_look h.refl _

theorem keeps_pushData (v : Word) : Keeps P (pushData v) :=
  keeps_bind h.trans (keeps_look h.refl _) fun _ => keeps_bind h.trans (keeps_look h.refl _) fun _ =>
    keeps_bind h.trans (keeps_raiseIf h.refl _ _) fun _ =>
      keeps_bind h.trans (keeps_update fun s => h.data s _ _) fun _ => keeps_update fun s => h.st s _

theorem keeps_checkDataBounds (a : Word) : Keeps P (checkDataBounds a) :=
  keeps_bind h.trans (keeps_look h.refl _) fun _ => keeps_bind h.trans (keeps_look h.refl _) fun _ => keeps_raiseIf h.refl _ _

theorem keeps_calcAddress (r : Reg) (d : Word) : Keeps P (calcAddress r d) := keeps_look h.refl _

theorem keeps_popWords (n : Nat) : Keeps P (popWords n) := by
  induction n with
  | zero => exact keeps_pure h.refl _
  | succ n ih =>
    exact keeps_bind h.trans (keeps_popData h) fun _ => keeps_bind h.trans ih fun _ => keeps_pure h.refl _

theorem keeps_discardWords (n : Nat) : Keeps P (discardWords n) := by
  induction n with
  | zero => exact keeps_pure h.refl _
  | succ n ih => exact keeps_bind h.trans (keeps_popDiscard h) fun _ => ih

theorem keeps_pushWords (vs : List Word) : Keeps P (pushWords vs) := by
  induction vs with
  | nil => exact keeps_pure h.refl _
  | cons v vs ih => exact keeps_bind h.trans (keeps_pushData h v) fun _ => ih

theorem keeps_loadBlock (n : Nat) (a : Word) : Keeps P (loadBlock a n) := by
  induction n generalizing a with
  | zero => exact keeps_pure h.refl _
  | succ n ih =>
    exact keeps_bind h.trans (keeps_checkDataBounds h a) fun _ => keeps_bind h.trans (keeps_look h.refl _) fun v =>
      keeps_bind h.trans (keeps_pushData h v) fun _ => ih (a + 1)

theorem keeps_storeWords (vs : List Word) (a : Word) : Keeps P (storeWords a vs) := by
  induction vs generalizing a with
  | nil => exact keeps_pure h.refl _
  | cons v vs ih =>
    exact keeps_bind h.trans (keeps_checkDataBounds h a) fun _ =>
      keeps_bind h.trans (keeps_update fun s => h.data s a v) fun _ => ih (a + 1)

theorem keeps_inRead : Keeps P inRead := by
  intro s
  cases hin : s.input with
  | nil => rw [inRead_end hin]; exact h.refl s
  | cons b rest => rw [inRead_byte hin]; exact h.input s rest

theorem keeps_readLine (bytes : List Byte) : Keeps P (readLine bytes) := by
  induction bytes with
  | nil => exact keeps_bind h.trans (keeps_inRead h) fun _ => keeps_pure h.refl _
  | cons b rest ih =>
    refine keeps_bind h.trans (keeps_inRead h) fun c => ?_
    split
    · exact keeps_pure h.refl _
    · exact ih

theorem keeps_parseInput : Keeps P parseInput := by
  intro s
  unfold parseInput
  cases Config.parseInt s.input with
  | none => exact h.refl s
  | some p => exact h.input s _

theorem keeps_popSigned : Keeps P popSigned := keeps_bind h.trans (keeps_popData h) fun _ => keeps_pure h.refl _

theorem keeps_pop2 : Keeps P pop2 :=
  keeps_bind h.trans (keeps_popSigned h) fun _ => keeps_bind h.trans (keeps_popSigned h) fun _ => keeps_pure h.refl _

theorem keeps_countOf (d : Word) : Keeps P (countOf d) :=
  keeps_bind h.trans (keeps_raiseIf h.refl _ _) fun _ => keeps_pure h.refl _

theorem keeps_staticLink (n : BitVec 8) : Keeps P (staticLink n) := by
  unfold staticLink
  split
  · exact keeps_look h.refl _
  · exact keeps_raise h.refl _

theorem keeps_unaryRoutine (f : Int → Word) : Keeps P (unaryRoutine f) :=
  keeps_bind h.trans (keeps_popSigned h) fun _ => keeps_pushData h _

theorem keeps_binaryRoutine (f : Int → Int → Word) : Keeps P (binaryRoutine f) :=
  keeps_bind h.trans (keeps_pop2 h) fun _ => keeps_pushData h _

theorem keeps_dividingRoutine (f : Int → Int → Word) : Keeps P (dividingRoutine f) :=
  keeps_bind h.trans (keeps_pop2 h) fun _ => keeps_bind h.trans (keeps_raiseIf h.refl _ _) fun _ => keeps_pushData h _

theorem keeps_blockCompare : Keeps P blockCompare :=
  keeps_bind h.trans (keeps_popData h) fun _ => keeps_bind h.trans (keeps_raiseIf h.refl _ _) fun _ =>
    keeps_bind h.trans (keeps_popWords h _) fun _ => keeps_bind h.trans (keeps_popWords h _) fun _ => keeps_pure h.refl _

end Operations

section Transfers
variable (h : RunClosed P)
include h

theorem keeps_jumpTo (t : Word) : Keeps P (jumpTo t) :=
  keeps_bind h.trans (keeps_look h.refl _) fun _ => keeps_bind h.trans (keeps_raiseIf h.refl _ _) fun _ =>
    keeps_update fun s => h.cp s _

theorem keeps_callFrame (r : Reg) (n : BitVec 8) (d : Word) : Keeps P (callFrame r n d) := by
  exact keeps_bind h.trans (keeps_calcAddress h.toStackClosed r d) fun t => keeps_bind h.trans (keeps_look h.refl _) fun _ =>
    keeps_bind h.trans (keeps_raiseIf h.refl _ _) fun _ => keeps_bind h.trans (keeps_staticLink h.toStackClosed n) fun _ =>
    keeps_bind h.trans (keeps_pushData h.toStackClosed _) fun _ => keeps_bind h.trans (keeps_look h.refl _) fun _ =>
    keeps_bind h.trans (keeps_pushData h.toStackClosed _) fun _ => keeps_bind h.trans (keeps_look h.refl _) fun _ =>
    keeps_bind h.trans (keeps_pushData h.toStackClosed _) fun _ => keeps_bind h.trans (keeps_look h.refl _) fun _ =>
    keeps_bind h.trans (keeps_update fun s => h.lb s _) fun _ => keeps_update fun s => h.cp s _

theorem conclude_keeps {x : M Unit} (hx : Keeps P x) {s t : State} (he : conclude x s = .next t) : P s t :=
  keeps_conclude hx h.trans h.fault he

/-- Every primitive routine keeps it. -/
theorem primitive_keeps {ident : Nat} {s t : State} (he : primitive ident s = .next t) : P s t := by
  have k := h.toStackClosed
  unfold primitive at he
  split at he
  · exact conclude_keeps h (keeps_pure k.refl _) he
  · exact conclude_keeps h (keeps_unaryRoutine k _) he
  · exact conclude_keeps h (keeps_binaryRoutine k _) he
  · exact conclude_keeps h (keeps_binaryRoutine k _) he
  · exact conclude_keeps h (keeps_unaryRoutine k _) he
  · exact conclude_keeps h (keeps_unaryRoutine k _) he
  · exact conclude_keeps h (keeps_unaryRoutine k _) he
  · exact conclude_keeps h (keeps_binaryRoutine k _) he
  · exact conclude_keeps h (keeps_binaryRoutine k _) he
  · exact conclude_keeps h (keeps_binaryRoutine k _) he
  · exact conclude_keeps h (keeps_dividingRoutine k _) he
  · exact conclude_keeps h (keeps_dividingRoutine k _) he
  · exact conclude_keeps h (keeps_binaryRoutine k _) he
  · exact conclude_keeps h (keeps_binaryRoutine k _) he
  · exact conclude_keeps h (keeps_binaryRoutine k _) he
  · exact conclude_keeps h (keeps_binaryRoutine k _) he
  · exact conclude_keeps h (keeps_bind k.trans (keeps_blockCompare k) fun _ => keeps_pushData k _) he
  · exact conclude_keeps h (keeps_bind k.trans (keeps_blockCompare k) fun _ => keeps_pushData k _) he
  · exact conclude_keeps h (keeps_bind k.trans (keeps_look k.refl _) fun _ => keeps_pushData k _) he
  · exact conclude_keeps h (keeps_bind k.trans (keeps_look k.refl _) fun _ => keeps_pushData k _) he
  · exact conclude_keeps h (keeps_bind k.trans (keeps_popData k) fun _ => keeps_bind k.trans (keeps_checkDataBounds k _) fun _ =>
      keeps_bind k.trans (keeps_inRead k) fun _ => keeps_update fun s => k.data s _ _) he
  · exact conclude_keeps h (keeps_bind k.trans (keeps_popData k) fun _ => keeps_update fun s => k.output s _) he
  · exact conclude_keeps h (keeps_bind k.trans (keeps_look k.refl _) fun _ => keeps_readLine k _) he
  · exact conclude_keeps h (keeps_update fun s => k.output s _) he
  · exact conclude_keeps h (keeps_bind k.trans (keeps_popData k) fun _ => keeps_bind k.trans (keeps_checkDataBounds k _) fun _ =>
      keeps_bind k.trans (keeps_parseInput k) fun _ => keeps_update fun s => k.data s _ _) he
  · exact conclude_keeps h (keeps_bind k.trans (keeps_popSigned k) fun _ => keeps_update fun s => k.output s _) he
  · exact conclude_keeps h (keeps_raise k.refl _) he
  · exact conclude_keeps h (keeps_raise k.refl _) he
  · exact conclude_keeps h (keeps_raise k.refl _) he

/-- Every instruction but `HALT` keeps it. -/
theorem exec_keeps_run {i : Instr} {s t : State} (hi : i ≠ .halt) (he : exec i s = .next t) : P s t := by
  have k := h.toStackClosed
  cases i with
  | load r n d => exact conclude_keeps h (keeps_bind k.trans (keeps_calcAddress k r d) fun a => keeps_loadBlock k _ a) he
  | loada r d => exact conclude_keeps h (keeps_bind k.trans (keeps_calcAddress k r d) fun a => keeps_pushData k a) he
  | loadi n => exact conclude_keeps h (keeps_bind k.trans (keeps_popData k) fun a => keeps_loadBlock k _ a) he
  | loadl d => exact conclude_keeps h (keeps_pushData k d) he
  | store r n d =>
    exact conclude_keeps h (keeps_bind k.trans (keeps_calcAddress k r d) fun a => keeps_bind k.trans (keeps_popWords k _) fun _ =>
      keeps_storeWords k _ a) he
  | storei n =>
    exact conclude_keeps h (keeps_bind k.trans (keeps_popWords k _) fun _ => keeps_bind k.trans (keeps_popData k) fun a =>
      keeps_storeWords k _ a) he
  | reserved6 => exact conclude_keeps h (keeps_raise k.refl _) he
  | reserved7 => exact conclude_keeps h (keeps_raise k.refl _) he
  | call r n d =>
    change execCall r n d s = _ at he
    unfold execCall at he
    split at he
    · exact primitive_keeps h he
    · exact conclude_keeps h (keeps_callFrame h r n d) he
  | ret n d =>
    exact conclude_keeps h (keeps_bind k.trans (keeps_countOf k d) fun _ => keeps_bind k.trans (keeps_popWords k _) fun _ =>
      keeps_bind k.trans (keeps_look k.refl _) fun _ => keeps_bind k.trans (keeps_look k.refl _) fun _ =>
      keeps_bind k.trans (keeps_look k.refl _) fun _ => keeps_bind k.trans (keeps_update fun s => k.st s _) fun _ =>
      keeps_bind k.trans (keeps_discardWords k _) fun _ => keeps_bind k.trans (keeps_pushWords k _) fun _ =>
      keeps_bind k.trans (keeps_update fun s => h.lb s _) fun _ => keeps_update fun s => h.cp s _) he
  | push d =>
    exact conclude_keeps h (keeps_bind k.trans (keeps_countOf k d) fun _ => keeps_bind k.trans (keeps_look k.refl _) fun _ =>
      keeps_bind k.trans (keeps_look k.refl _) fun _ => keeps_bind k.trans (keeps_raiseIf k.refl _ _) fun _ =>
      keeps_update fun s => k.st s _) he
  | pop n d =>
    exact conclude_keeps h (keeps_bind k.trans (keeps_countOf k d) fun _ => keeps_bind k.trans (keeps_popWords k _) fun _ =>
      keeps_bind k.trans (keeps_discardWords k _) fun _ => keeps_pushWords k _) he
  | jump r d => exact conclude_keeps h (keeps_bind k.trans (keeps_calcAddress k r d) fun t => keeps_jumpTo h t) he
  | jumpi => exact conclude_keeps h (keeps_bind k.trans (keeps_popData k) fun t => keeps_jumpTo h t) he
  | jumpif r n d =>
    refine conclude_keeps h (keeps_bind k.trans (keeps_calcAddress k r d) fun t => keeps_bind k.trans (keeps_popSigned k) fun i => ?_) he
    split
    · exact keeps_jumpTo h t
    · exact keeps_pure k.refl _
  | halt => exact absurd rfl hi
  | primId => exact primitive_keeps h (ident := 1) he
  | primNot => exact primitive_keeps h (ident := 2) he
  | primAnd => exact primitive_keeps h (ident := 3) he
  | primOr => exact primitive_keeps h (ident := 4) he
  | primSucc => exact primitive_keeps h (ident := 5) he
  | primPred => exact primitive_keeps h (ident := 6) he
  | primNeg => exact primitive_keeps h (ident := 7) he
  | primAdd => exact primitive_keeps h (ident := 8) he
  | primSub => exact primitive_keeps h (ident := 9) he
  | primMult => exact primitive_keeps h (ident := 10) he
  | primDiv => exact primitive_keeps h (ident := 11) he
  | primMod => exact primitive_keeps h (ident := 12) he
  | primLt => exact primitive_keeps h (ident := 13) he
  | primLe => exact primitive_keeps h (ident := 14) he
  | primGe => exact primitive_keeps h (ident := 15) he
  | primGt => exact primitive_keeps h (ident := 16) he
  | primEq => exact primitive_keeps h (ident := 17) he
  | primNeq => exact primitive_keeps h (ident := 18) he
  | primEol => exact primitive_keeps h (ident := 19) he
  | primEof => exact primitive_keeps h (ident := 20) he
  | primGet => exact primitive_keeps h (ident := 21) he
  | primPut => exact primitive_keeps h (ident := 22) he
  | primGeteol => exact primitive_keeps h (ident := 23) he
  | primPuteol => exact primitive_keeps h (ident := 24) he
  | primGetint => exact primitive_keeps h (ident := 25) he
  | primPutint => exact primitive_keeps h (ident := 26) he
  | primReserved27 => exact primitive_keeps h (ident := 27) he
  | primReserved28 => exact primitive_keeps h (ident := 28) he

end Transfers

/-- `HALT` only halts. -/
theorem exec_halt (s : State) : exec .halt s = .next s.halt := rfl

/-- Every instruction keeps it. -/
theorem exec_keeps (h : StepClosed P) {i : Instr} {s t : State} (he : exec i s = .next t) : P s t := by
  by_cases hi : i = .halt
  · subst hi
    cases he
    exact h.halt s
  · exact exec_keeps_run h.toRunClosed hi he

/-- An instruction other than `HALT` that does not fault leaves the report as it was. -/
theorem exec_report {i : Instr} {s t : State} (hi : i ≠ .halt) (he : exec i s = .next t) : t.status = .faulted ∨ SameReport s t :=
  exec_keeps_run (P := fun s t => t.status = .faulted ∨ SameReport s t)
    { refl := fun _ => .inr ⟨rfl, rfl, rfl⟩
      trans := by
        rintro s t u (h1 | h1) (h2 | h2)
        · exact .inl h2
        · exact .inl (h2.1.trans h1)
        · exact .inl h2
        · exact .inr ⟨h2.1.trans h1.1, h2.2.1.trans h1.2.1, h2.2.2.trans h1.2.2⟩
      st := fun _ _ => .inr ⟨rfl, rfl, rfl⟩
      data := fun _ _ _ => .inr ⟨rfl, rfl, rfl⟩
      input := fun _ _ => .inr ⟨rfl, rfl, rfl⟩
      output := fun _ _ => .inr ⟨rfl, rfl, rfl⟩
      lb := fun _ _ => .inr ⟨rfl, rfl, rfl⟩
      cp := fun _ _ => .inr ⟨rfl, rfl, rfl⟩
      fault := fun _ _ _ => .inl rfl } hi he

/-! ## A step, taken apart -/

/-- What a step that answers a next state was: a fetch that faulted, or a fetch and the instruction it read. -/
theorem step_cases {s t : State} (h : step s = .next t) :
    s.status = .running ∧
      ((s.reg .ct ≤ s.reg .cp ∧ t = s.takeFault .codeAccessViolation (s.reg .cp)) ∨
        (s.reg .cp < s.reg .ct ∧ exec (decode (s.codeAt (s.reg .cp))) (s.setReg .cp (s.reg .cp + 1)) = .next t)) := by
  unfold step at h
  split at h
  · cases h
  · cases h
  · cases h
  · rename_i hr
    refine ⟨hr, ?_⟩
    by_cases hc : s.reg .cp < s.reg .ct
    · rw [fetch_inside hc] at h
      exact .inr ⟨hc, h⟩
    · have hc := BitVec.not_lt.mp hc
      rw [fetch_beyond hc] at h
      exact .inl ⟨hc, by cases h; rfl⟩

/-- A step keeps what the updates of an instruction keep. -/
theorem step_keeps (h : StepClosed P) {s t : State} (he : step s = .next t) : P s t := by
  obtain ⟨-, ⟨-, rfl⟩ | ⟨-, he⟩⟩ := step_cases he
  · exact h.fault s _ _
  · exact h.trans _ _ _ (h.cp s _) (exec_keeps h he)

end Sys2Proof.Machine
end

