-- ==== Sys2Proof/Laws/Routines.lean ====
section
/-! SUPPORT. The laws of the operand forms and of delivering a result: what popping operands answers, and what a push in their place
leaves. -/

namespace Sys2Proof.Machine

variable {s : State}

/-! ## Counts and operands -/

theorem countOf_negative {d : Word} (h : d.toInt < 0) : countOf d s = .error .illegalInstruction s := by
  simp only [countOf, M.bind_apply, raiseIf_true _ _ h]

theorem countOf_nonneg {d : Word} (h : 0 ≤ d.toInt) : countOf d s = .ok d.toNat s := by
  simp only [countOf, M.bind_apply, raiseIf_false _ _ (not_lt.mpr h), M.pure_apply]

theorem popSigned_empty (h : s.reg .st = 0) : popSigned s = .error .stackUnderflow s := by
  simp only [popSigned, M.bind_apply, popData_empty h]

theorem popSigned_nonempty (h : s.reg .st ≠ 0) : popSigned s = .ok (s.below 0).toInt (s.setReg .st (s.reg .st - 1)) := by
  simp only [popSigned, M.bind_apply, popData_nonempty h, M.pure_apply]

theorem top_pos_iff : 0 < s.top ↔ s.reg .st ≠ 0 := by
  rw [Nat.pos_iff_ne_zero]
  exact ⟨fun h h0 => h (by simp [State.top, h0]), fun h h0 => h (BitVec.eq_of_toNat_eq (by simpa [State.top] using h0))⟩

theorem pop2_enough (h : 2 ≤ s.top) : pop2 s = .ok ((s.below 1).toInt, (s.below 0).toInt) (s.setReg .st (s.reg .st - 2)) := by
  have h0 : s.reg .st ≠ 0 := top_pos_iff.mp (by omega)
  have h1 : (s.setReg .st (s.reg .st - 1)).reg .st ≠ 0 := top_pos_iff.mp (by rw [top_setReg_sub_one h0]; omega)
  simp only [pop2, M.bind_apply, popSigned_nonempty h0, popSigned_nonempty h1, M.pure_apply, below_setReg_sub_one,
    State.setReg_setReg, State.reg_setReg, if_true]
  rw [show s.reg .st - 1 - 1 = s.reg .st - 2 from sub_ofNat_sub (s.reg .st) 1 1]

theorem pop2_short (h : s.top < 2) : pop2 s = .error .stackUnderflow (s.setReg .st 0) := by
  by_cases h0 : s.reg .st = 0
  · have : s.setReg .st 0 = s := by rw [← h0]; exact s.setReg_reg .st
    simp only [pop2, M.bind_apply, popSigned_empty h0, this]
  · have hp := top_pos_iff.mpr h0
    have h1 : (s.setReg .st (s.reg .st - 1)).reg .st = 0 := by
      by_contra hne
      have := top_pos_iff.mpr hne
      rw [top_setReg_sub_one h0] at this
      omega
    simp only [pop2, M.bind_apply, popSigned_nonempty h0, popSigned_empty h1]
    rw [State.reg_setReg, if_pos rfl] at h1
    rw [h1]

/-! ## Results -/

theorem quiet_refl (s : State) : Quiet s s := ⟨⟨rfl, rfl, rfl⟩, rfl, rfl⟩

/-- A push onto what `pops` pops left delivers the word in their place. -/
theorem pushData_delivers {pops : Nat} (w : Word) (h : s.reg .st - BitVec.ofNat 16 pops < s.reg .ht) :
    ∃ t, pushData w (s.setReg .st (s.reg .st - BitVec.ofNat 16 pops)) = .ok () t ∧ Delivers s t pops w := by
  refine ⟨_, pushData_room w (by simpa using h), ?_⟩
  simp only [State.reg_setReg, if_true]
  refine ⟨by simp, by simp, ⟨fun r hr => ?_, fun a ha => ?_, rfl⟩, quiet_refl s⟩
  · have : r ≠ .st := by simpa using hr
    simp [this]
  · simp only [State.dataAt_setReg, State.dataAt_setData, if_neg ha]

/-- After at least one pop there is room for a push while the heap top is pinned. -/
theorem room_after_pops {pops : Nat} (hp : s.HeapPinned) (h1 : 0 < pops) (h2 : pops ≤ s.top) :
    s.reg .st - BitVec.ofNat 16 pops < s.reg .ht := by
  have := (s.reg .st).isLt
  rw [BitVec.lt_def, hp, toNat_sub_ofNat _ _ h2]
  unfold State.top at h2
  simp only [BitVec.reduceToNat]
  omega

theorem unaryRoutine_delivers (f : Int → Word) (hp : s.HeapPinned) (h : s.reg .st ≠ 0) :
    ∃ t, conclude (unaryRoutine f) s = .next t ∧ Delivers s t 1 (f (s.below 0).toInt) := by
  obtain ⟨t, ht, hd⟩ := pushData_delivers (f (s.below 0).toInt) (room_after_pops hp Nat.one_pos (top_pos_iff.mpr h))
  exact ⟨t, conclude_ok (by simp only [unaryRoutine, M.bind_apply, popSigned_nonempty h]; exact ht), hd⟩

theorem binaryRoutine_delivers (f : Int → Int → Word) (hp : s.HeapPinned) (h : 2 ≤ s.top) :
    ∃ t, conclude (binaryRoutine f) s = .next t ∧ Delivers s t 2 (f (s.below 1).toInt (s.below 0).toInt) := by
  obtain ⟨t, ht, hd⟩ := pushData_delivers (f (s.below 1).toInt (s.below 0).toInt) (room_after_pops hp Nat.two_pos h)
  exact ⟨t, conclude_ok (by simp only [binaryRoutine, M.bind_apply, pop2_enough h]; exact ht), hd⟩

theorem dividingRoutine_delivers (f : Int → Int → Word) (hp : s.HeapPinned) (h : 2 ≤ s.top) (hb : (s.below 0).toInt ≠ 0) :
    ∃ t, conclude (dividingRoutine f) s = .next t ∧ Delivers s t 2 (f (s.below 1).toInt (s.below 0).toInt) := by
  obtain ⟨t, ht, hd⟩ := pushData_delivers (f (s.below 1).toInt (s.below 0).toInt) (room_after_pops hp Nat.two_pos h)
  exact ⟨t, conclude_ok (by simp only [dividingRoutine, M.bind_apply, pop2_enough h, raiseIf_false _ _ hb]; exact ht), hd⟩

/-! ## Words deeper in the stack -/

theorem below_setReg_sub {n : Nat} (k : Nat) : (s.setReg .st (s.reg .st - BitVec.ofNat 16 n)).below k = s.below (n + k) := by
  simp only [State.below, State.reg_setReg, if_true, State.dataAt_setReg, sub_ofNat_sub]
  rw [Nat.add_assoc]

theorem top_setReg_sub {n : Nat} (h : n ≤ s.top) : (s.setReg .st (s.reg .st - BitVec.ofNat 16 n)).top = s.top - n := by
  simpa [State.top] using toNat_sub_ofNat (s.reg .st) n h

theorem topWords_setReg_sub {m : Nat} (n : Nat) :
    (s.setReg .st (s.reg .st - BitVec.ofNat 16 m)).topWords n = (List.range n).map fun k => s.below (m + k) := by
  exact List.map_congr_left fun k _ => below_setReg_sub k

/-- The words popped, deepest first, read by their distance from the deepest. -/
theorem topWords_reverse_get {n k : Nat} (hk : k < (s.topWords n).reverse.length) :
    (s.topWords n).reverse[k] = s.dataAt (s.reg .st - BitVec.ofNat 16 n + BitVec.ofNat 16 k) := by
  simp only [List.length_reverse, State.length_topWords] at hk
  simp only [State.topWords, List.getElem_reverse, List.getElem_map, List.getElem_range, List.length_map, List.length_range, State.below]
  congr 1
  obtain ⟨m, rfl⟩ : ∃ m, n = k + m := ⟨n - k, by omega⟩
  rw [show k + m - 1 - k + 1 = m by omega, BitVec.ofNat_add, add_comm (BitVec.ofNat 16 k), ← sub_sub, sub_add_cancel]

/-- `BlockCompare()` with both blocks there. -/
theorem blockCompare_enough {k : Nat} (h0 : 0 ≤ (s.below 0).toInt) (hk : (s.below 0).toNat = k) (h : 1 + 2 * k ≤ s.top) :
    blockCompare s = .ok (decide (∀ j < k, s.below (1 + j) = s.below (1 + k + j)))
      (s.setReg .st (s.reg .st - BitVec.ofNat 16 (1 + 2 * k))) := by
  have hne : s.reg .st ≠ 0 := top_pos_iff.mp (by omega)
  have e1 : s.reg .st - 1 = s.reg .st - BitVec.ofNat 16 1 := rfl
  have hq : k ≤ (s.setReg .st (s.reg .st - BitVec.ofNat 16 1)).top := by rw [top_setReg_sub (by omega)]; omega
  have hp : k ≤ (s.setReg .st (s.reg .st - BitVec.ofNat 16 (1 + k))).top := by rw [top_setReg_sub (by omega)]; omega
  have sub2 : s.reg .st - BitVec.ofNat 16 1 - BitVec.ofNat 16 k = s.reg .st - BitVec.ofNat 16 (1 + k) := sub_ofNat_sub _ _ _
  simp only [blockCompare, M.bind_apply, popData_nonempty hne, raiseIf_false _ _ (not_lt.mpr h0), hk, e1, popWords_enough hq,
    State.setReg_setReg, State.reg_setReg, if_true, sub2, popWords_enough hp, M.pure_apply]
  rw [sub_ofNat_sub, show 1 + k + k = 1 + 2 * k by omega, topWords_setReg_sub, topWords_setReg_sub]
  congr 1
  apply decide_eq_decide.mpr
  simp only [List.map_inj_left, List.mem_range]
  exact ⟨fun h j hj => (h j hj).symm, fun h j hj => (h j hj).symm⟩

/-- `BlockCompare()` where it raises: no length, a negative length, or too few words (44_primitives_alu.md R138). -/
theorem blockCompare_empty (h : s.reg .st = 0) : blockCompare s = .error .stackUnderflow s := by
  simp only [blockCompare, M.bind_apply, popData_empty h]

theorem blockCompare_negative (h : s.reg .st ≠ 0) (h0 : (s.below 0).toInt < 0) :
    blockCompare s = .error .illegalInstruction (s.setReg .st (s.reg .st - 1)) := by
  simp only [blockCompare, M.bind_apply, popData_nonempty h, raiseIf_true _ _ h0]

theorem blockCompare_short (h : s.reg .st ≠ 0) (h0 : 0 ≤ (s.below 0).toInt) (hs : s.top < 1 + 2 * (s.below 0).toNat) :
    blockCompare s = .error .stackUnderflow (s.setReg .st 0) := by
  have hpos := top_pos_iff.mpr h
  simp only [blockCompare, M.bind_apply, popData_nonempty h, raiseIf_false _ _ (not_lt.mpr h0)]
  by_cases hq : (s.below 0).toNat ≤ s.top - 1
  · rw [popWords_enough (by rwa [top_setReg_sub_one h])]
    have htop := top_setReg_sub (s := s) (n := 1 + (s.below 0).toNat) (by omega)
    rw [← sub_ofNat_sub] at htop
    have hraise := popWords_short (n := (s.below 0).toNat) (lt_of_eq_of_lt htop (by omega))
    rw [State.setReg_setReg] at hraise
    simp only [State.setReg_setReg, State.reg_setReg, if_true]
    rw [show s.reg .st - 1 = s.reg .st - BitVec.ofNat 16 1 from rfl, hraise]
  · rw [popWords_short (by rw [top_setReg_sub_one h]; omega), State.setReg_setReg]

end Sys2Proof.Machine
end

