-- ==== Sys2Proof/Laws/Control.lean ====
section
/-! SUPPORT. The laws of a call: the static link, the frame built, and how many words a frame takes. -/

namespace Sys2Proof.Machine

variable {s : State}

/-- `N` in 0 to 15 is a register number, and the static link is that register's value (43_control_transfer.md R106). -/
theorem staticLink_reg (q : Reg) : staticLink ((regNumber q).setWidth 8) s = .ok (s.reg q) s := by cases q <;> rfl

theorem regOfCount_some {n : BitVec 8} (h : n.toNat < 16) : ∃ q, n = (regNumber q).setWidth 8 := by
  have hall : ∀ m : BitVec 8, m.toNat < 16 → m = (regNumber (regMap (m.setWidth 4))).setWidth 8 := by decide
  exact ⟨_, hall n h⟩

theorem staticLink_none {n : BitVec 8} (h : 16 ≤ n.toNat) : staticLink n s = .error .illegalInstruction s := by
  have : regOfCount n = none := if_neg (by rw [BitVec.lt_def]; simpa using h)
  simp only [staticLink, this, raise_apply]

/-- A call that has the room: three words pushed, `LB` at the first of them, `CP` at the target. -/
theorem callFrame_room {r : Reg} {n : BitVec 8} {d link : Word} (hp : s.HeapPinned) (hc : s.calcAddress r d < s.reg .ct)
    (hn : staticLink n s = .ok link s) (h : s.top + 3 ≤ 65535) :
    callFrame r n d s = .ok () ((((s.setBlock (s.reg .st) [link, s.reg .lb, s.reg .cp]).setReg .st (s.reg .st + 3)).setReg .lb
      (s.reg .st)).setReg .cp (s.calcAddress r d)) := by
  have hst := (s.reg .st).isLt
  unfold State.top at h
  have e1 : (s.reg .st + 1).toNat = (s.reg .st).toNat + 1 := toNat_add_ofNat _ 1 (by omega)
  have e2 : (s.reg .st + 1 + 1).toNat = (s.reg .st).toNat + 2 := by
    rw [show s.reg .st + 1 + 1 = s.reg .st + BitVec.ofNat 16 2 from add_ofNat_add _ 1 1]
    exact toNat_add_ofNat _ 2 (by omega)
  have room : ∀ w : Word, w.toNat < 65535 → w < s.reg .ht := by
    intro w hw
    rw [hp, BitVec.lt_def]
    exact hw
  unfold callFrame
  simp only [M.bind_apply, calcAddress_apply, look_apply, raiseIf_false _ _ (BitVec.not_le.mpr hc), hn,
    pushData_room _ (room (s.reg .st) (by omega))]
  rw [pushData_room _ (by simpa using room (s.reg .st + 1) (by omega))]
  simp only [State.reg_setReg, State.reg_setData, if_true]
  rw [pushData_room _ (by simpa using room (s.reg .st + 1 + 1) (by omega))]
  simp only [State.reg_setReg, State.reg_setData, if_true, update_apply]
  have e3 : s.reg .st + 1 + 1 + 1 = s.reg .st + 3 := by rw [add_assoc, add_assoc]; rfl
  have e4 : s.reg .st + 3 - 3 = s.reg .st := add_sub_cancel_right _ _
  rw [e3, e4]
  rfl

/-- A call whose target and register number pass the checks, but that does not have the room: the words that fit stay pushed, and the
next push raises, with `LB` and `CP` as they were. -/
theorem callFrame_overflow {r : Reg} {n : BitVec 8} {d link : Word} (hp : s.HeapPinned) (hc : s.calcAddress r d < s.reg .ct)
    (hn : staticLink n s = .ok link s) (h : 65535 < s.top + 3) :
    callFrame r n d s =
      .error .stackOverflow ((s.setBlock (s.reg .st) ([link, s.reg .lb, s.reg .cp].take (65535 - s.top))).setReg .st 0xFFFF) := by
  have hpush := pushWords_overflow (vs := [link, s.reg .lb, s.reg .cp]) hp h
  unfold callFrame
  simp only [pushWords, M.bind_apply] at hpush
  simp only [M.bind_apply, calcAddress_apply, look_apply, raiseIf_false _ _ (BitVec.not_le.mpr hc), hn]
  by_cases h0 : s.reg .ht ≤ s.reg .st
  · rw [pushData_full _ h0] at hpush ⊢
    exact hpush
  rw [pushData_room _ (BitVec.not_le.mp h0)] at hpush ⊢
  simp only [State.reg_setReg, State.reg_setData, reduceCtorEq, if_false] at hpush ⊢
  by_cases h1 : s.reg .ht ≤ s.reg .st + 1
  · rw [pushData_full _ (by simpa using h1)] at hpush ⊢
    exact hpush
  rw [pushData_room _ (by simpa using BitVec.not_le.mp h1)] at hpush ⊢
  simp only [State.reg_setReg, State.reg_setData, reduceCtorEq, if_false, if_true] at hpush ⊢
  by_cases h2 : s.reg .ht ≤ s.reg .st + 1 + 1
  · rw [pushData_full _ (by simpa using h2)] at hpush ⊢
    exact hpush
  · rw [pushData_room _ (by simpa using BitVec.not_le.mp h2)] at hpush
    cases hpush

/-- A call that does not have the room raises. -/
theorem callFrame_raises {r : Reg} {n : BitVec 8} {d : Word} (hp : s.HeapPinned) (h : 65535 < s.top + 3) :
    ∃ k t, callFrame r n d s = .error k t := by
  by_cases hc : s.calcAddress r d < s.reg .ct
  · by_cases hn : 16 ≤ n.toNat
    · refine ⟨.illegalInstruction, s, ?_⟩
      unfold callFrame
      simp only [M.bind_apply, calcAddress_apply, look_apply, raiseIf_false _ _ (BitVec.not_le.mpr hc), staticLink_none hn]
    · obtain ⟨q, rfl⟩ := regOfCount_some (Nat.lt_of_not_le hn)
      exact ⟨_, _, callFrame_overflow hp hc (staticLink_reg q) h⟩
  · refine ⟨.codeAccessViolation, s, ?_⟩
    unfold callFrame
    simp only [M.bind_apply, calcAddress_apply, look_apply, raiseIf_true _ _ (BitVec.not_lt.mp hc)]

end Sys2Proof.Machine
end

