-- ==== Sys2Proof/Laws/Decode.lean ====
section
/-! SUPPORT. The laws of the encoding: the fields of a packed word, the numbers of the names, and which identifiers name a primitive. -/

namespace Sys2Proof

section Fields
variable (op r : BitVec 4) (n : BitVec 8) (d : Word)

theorem toNat_packWord : (packWord op r n d).toNat = op.toNat * 2 ^ 28 + r.toNat * 2 ^ 24 + n.toNat * 2 ^ 16 + d.toNat := by
  simp only [packWord, BitVec.toNat_append]
  rw [← Nat.shiftLeft_add_eq_or_of_lt d.isLt, ← Nat.shiftLeft_add_eq_or_of_lt n.isLt, ← Nat.shiftLeft_add_eq_or_of_lt r.isLt]
  simp only [Nat.shiftLeft_eq]
  ring

@[simp] theorem opField_packWord : opField (packWord op r n d) = op := by
  apply BitVec.eq_of_toNat_eq
  simp only [opField, BitVec.extractLsb'_toNat, toNat_packWord, Nat.shiftRight_eq_div_pow]
  have := op.isLt; have := r.isLt; have := n.isLt; have := d.isLt
  omega

@[simp] theorem rField_packWord : rField (packWord op r n d) = r := by
  apply BitVec.eq_of_toNat_eq
  simp only [rField, BitVec.extractLsb'_toNat, toNat_packWord, Nat.shiftRight_eq_div_pow]
  have := op.isLt; have := r.isLt; have := n.isLt; have := d.isLt
  omega

@[simp] theorem nField_packWord : nField (packWord op r n d) = n := by
  apply BitVec.eq_of_toNat_eq
  simp only [nField, BitVec.extractLsb'_toNat, toNat_packWord, Nat.shiftRight_eq_div_pow]
  have := op.isLt; have := r.isLt; have := n.isLt; have := d.isLt
  omega

@[simp] theorem dField_packWord : dField (packWord op r n d) = d := by
  apply BitVec.eq_of_toNat_eq
  simp only [dField, BitVec.extractLsb'_toNat, toNat_packWord, Nat.shiftRight_eq_div_pow]
  have := op.isLt; have := r.isLt; have := n.isLt; have := d.isLt
  omega

end Fields

/-- A code word is its four fields. -/
theorem packWord_fields (w : CodeWord) : packWord (opField w) (rField w) (nField w) (dField w) = w := by
  apply BitVec.eq_of_toNat_eq
  simp only [toNat_packWord, opField, rField, nField, dField, BitVec.extractLsb'_toNat, Nat.shiftRight_eq_div_pow]
  have := w.isLt
  omega

/-- Masking a code word masks each field. -/
theorem packWord_and (op r op' r' : BitVec 4) (n n' : BitVec 8) (d d' : Word) :
    packWord op r n d &&& packWord op' r' n' d' = packWord (op &&& op') (r &&& r') (n &&& n') (d &&& d') := by
  exact BitVec.and_append.trans (by rw [BitVec.and_append, BitVec.and_append]; rfl)

@[simp] theorem opMap_opNumber (o : OpName) : opMap (opNumber o) = o := by cases o <;> rfl
@[simp] theorem regMap_regNumber (r : Reg) : regMap (regNumber r) = r := by cases r <;> rfl
@[simp] theorem regNumber_regMap (k : BitVec 4) : regNumber (regMap k) = k := by revert k; decide

/-- What selecting a primitive says of the fields. -/
theorem selectsPrimitive_iff (r : Reg) (d : Word) : selectsPrimitive r d = true ↔ r = .pb ∧ 1 ≤ d.toInt ∧ d.toInt ≤ 28 := by
  simp [selectsPrimitive]

/-- An identifier from 1 to 28 names the primitive of its row. -/
theorem primMap_some {d : Word} (h : 1 ≤ d.toInt ∧ d.toInt ≤ 28) : ∃ i, primMap d.toNat = some i ∧ rowOf i = .prim d.toNat := by
  have hk : 1 ≤ d.toNat ∧ d.toNat ≤ 28 := by
    rw [BitVec.toInt_eq_toNat_cond] at h
    have := d.isLt
    split at h <;> omega
  generalize d.toNat = k at hk
  obtain ⟨h1, h2⟩ := hk
  interval_cases k <;> exact ⟨_, rfl, rfl⟩

/-- Nothing else names one. -/
theorem primMap_none {d : Word} (h : ¬ (1 ≤ d.toInt ∧ d.toInt ≤ 28)) : primMap d.toNat = none := by
  unfold primMap
  rw [BitVec.toInt_eq_toNat_cond] at h
  have := d.isLt
  split <;> first | rfl | (exfalso; simp_all)

end Sys2Proof
end

