-- ==== Sys2Proof/Laws/PerInstr.lean ====
section
/-! SUPPORT. The family of per-instruction lemmas `RowOfWord`: the word of an instruction matches its own row of the opcode table
(30_encoding.md R63). -/

namespace Sys2Proof.Laws.RowOfWord

/-- Some row of the opcode table bears the instruction's name and matches its code word. -/
def Statement (i : Instr) : Prop :=
  ∃ row ∈ opcodeRows ++ primitiveRows, row.name = rowOf i ∧ rowMatches row (encode i) = true

/-- The top four bits of a packed word are its `OP`. -/
theorem packWord_and_op (op r : BitVec 4) (n : BitVec 8) (d : Word) : packWord op r n d &&& 0xF0000000 = packWord op 0 0 0 := by
  rw [show (0xF0000000 : CodeWord) = packWord 15 0 0 0 by decide, packWord_and]
  congr 1
  · exact BitVec.and_allOnes
  all_goals exact BitVec.and_zero

/-- The row of an opcode value matches every word with that value in `OP`. -/
theorem opcode_row (i : Instr) (op r : BitVec 4) (n : BitVec 8) (d : Word) (row : OpRow) (hmem : row ∈ opcodeRows) (hname : row.name = rowOf i)
    (hword : encode i = packWord op r n d) (hmask : row.mask = 0xF0000000) (hpattern : row.pattern = packWord op 0 0 0) : Statement i := by
  refine ⟨row, List.mem_append_left _ hmem, hname, ?_⟩
  rw [rowMatches, hword, hmask, hpattern, packWord_and_op, beq_self_eq_true]

theorem load (r : Reg) (n : BitVec 8) (d : Word) : Statement (.load r n d) :=
  opcode_row _ 0 (regNumber r) n d (opcodeRows[0]) (by decide) rfl rfl rfl rfl

theorem loada (r : Reg) (d : Word) : Statement (.loada r d) :=
  opcode_row _ 1 (regNumber r) 0 d (opcodeRows[1]) (by decide) rfl rfl rfl rfl

theorem loadi (n : BitVec 8) : Statement (.loadi n) :=
  opcode_row _ 2 0 n 0 (opcodeRows[2]) (by decide) rfl rfl rfl rfl

theorem loadl (d : Word) : Statement (.loadl d) :=
  opcode_row _ 3 0 0 d (opcodeRows[3]) (by decide) rfl rfl rfl rfl

theorem store (r : Reg) (n : BitVec 8) (d : Word) : Statement (.store r n d) :=
  opcode_row _ 4 (regNumber r) n d (opcodeRows[4]) (by decide) rfl rfl rfl rfl

theorem storei (n : BitVec 8) : Statement (.storei n) :=
  opcode_row _ 5 0 n 0 (opcodeRows[5]) (by decide) rfl rfl rfl rfl

theorem reserved6 : Statement .reserved6 :=
  opcode_row _ 6 0 0 0 (opcodeRows[6]) (by decide) rfl rfl rfl rfl

theorem reserved7 : Statement .reserved7 :=
  opcode_row _ 7 0 0 0 (opcodeRows[7]) (by decide) rfl rfl rfl rfl

theorem call (r : Reg) (n : BitVec 8) (d : Word) : Statement (.call r n d) :=
  opcode_row _ 8 (regNumber r) n d (opcodeRows[8]) (by decide) rfl rfl rfl rfl

theorem ret (n : BitVec 8) (d : Word) : Statement (.ret n d) :=
  opcode_row _ 9 0 n d (opcodeRows[9]) (by decide) rfl rfl rfl rfl

theorem push (d : Word) : Statement (.push d) :=
  opcode_row _ 10 0 0 d (opcodeRows[10]) (by decide) rfl rfl rfl rfl

theorem pop (n : BitVec 8) (d : Word) : Statement (.pop n d) :=
  opcode_row _ 11 0 n d (opcodeRows[11]) (by decide) rfl rfl rfl rfl

theorem jump (r : Reg) (d : Word) : Statement (.jump r d) :=
  opcode_row _ 12 (regNumber r) 0 d (opcodeRows[12]) (by decide) rfl rfl rfl rfl

theorem jumpi : Statement .jumpi :=
  opcode_row _ 13 0 0 0 (opcodeRows[13]) (by decide) rfl rfl rfl rfl

theorem jumpif (r : Reg) (n : BitVec 8) (d : Word) : Statement (.jumpif r n d) :=
  opcode_row _ 14 (regNumber r) n d (opcodeRows[14]) (by decide) rfl rfl rfl rfl

theorem halt : Statement .halt :=
  opcode_row _ 15 0 0 0 (opcodeRows[15]) (by decide) rfl rfl rfl rfl

theorem primId : Statement .primId :=
  ⟨primitiveRows[0], by decide, rfl, by decide⟩

theorem primNot : Statement .primNot :=
  ⟨primitiveRows[1], by decide, rfl, by decide⟩

theorem primAnd : Statement .primAnd :=
  ⟨primitiveRows[2], by decide, rfl, by decide⟩

theorem primOr : Statement .primOr :=
  ⟨primitiveRows[3], by decide, rfl, by decide⟩

theorem primSucc : Statement .primSucc :=
  ⟨primitiveRows[4], by decide, rfl, by decide⟩

theorem primPred : Statement .primPred :=
  ⟨primitiveRows[5], by decide, rfl, by decide⟩

theorem primNeg : Statement .primNeg :=
  ⟨primitiveRows[6], by decide, rfl, by decide⟩

theorem primAdd : Statement .primAdd :=
  ⟨primitiveRows[7], by decide, rfl, by decide⟩

theorem primSub : Statement .primSub :=
  ⟨primitiveRows[8], by decide, rfl, by decide⟩

theorem primMult : Statement .primMult :=
  ⟨primitiveRows[9], by decide, rfl, by decide⟩

theorem primDiv : Statement .primDiv :=
  ⟨primitiveRows[10], by decide, rfl, by decide⟩

theorem primMod : Statement .primMod :=
  ⟨primitiveRows[11], by decide, rfl, by decide⟩

theorem primLt : Statement .primLt :=
  ⟨primitiveRows[12], by decide, rfl, by decide⟩

theorem primLe : Statement .primLe :=
  ⟨primitiveRows[13], by decide, rfl, by decide⟩

theorem primGe : Statement .primGe :=
  ⟨primitiveRows[14], by decide, rfl, by decide⟩

theorem primGt : Statement .primGt :=
  ⟨primitiveRows[15], by decide, rfl, by decide⟩

theorem primEq : Statement .primEq :=
  ⟨primitiveRows[16], by decide, rfl, by decide⟩

theorem primNeq : Statement .primNeq :=
  ⟨primitiveRows[17], by decide, rfl, by decide⟩

theorem primEol : Statement .primEol :=
  ⟨primitiveRows[18], by decide, rfl, by decide⟩

theorem primEof : Statement .primEof :=
  ⟨primitiveRows[19], by decide, rfl, by decide⟩

theorem primGet : Statement .primGet :=
  ⟨primitiveRows[20], by decide, rfl, by decide⟩

theorem primPut : Statement .primPut :=
  ⟨primitiveRows[21], by decide, rfl, by decide⟩

theorem primGeteol : Statement .primGeteol :=
  ⟨primitiveRows[22], by decide, rfl, by decide⟩

theorem primPuteol : Statement .primPuteol :=
  ⟨primitiveRows[23], by decide, rfl, by decide⟩

theorem primGetint : Statement .primGetint :=
  ⟨primitiveRows[24], by decide, rfl, by decide⟩

theorem primPutint : Statement .primPutint :=
  ⟨primitiveRows[25], by decide, rfl, by decide⟩

theorem primReserved27 : Statement .primReserved27 :=
  ⟨primitiveRows[26], by decide, rfl, by decide⟩

theorem primReserved28 : Statement .primReserved28 :=
  ⟨primitiveRows[27], by decide, rfl, by decide⟩

end Sys2Proof.Laws.RowOfWord
end

