-- ==== Sys2Proof/Laws/Raises.lean ====
section
/-! SUPPORT. Which error kinds each shared operation can raise (60_exceptions.md R173, the raise sites), and which data words it can touch. -/

namespace Sys2Proof.Machine

variable {α β : Type} {ks : List ErrKind}

/-! ## The kinds raised -/

/-- Whatever `x` raises is one of the listed kinds. -/
def RaisesOnly (ks : List ErrKind) (x : M α) : Prop := ∀ s k t, x s = .error k t → k ∈ ks

theorem raisesOnly_bind {x : M α} {f : α → M β} (hx : RaisesOnly ks x) (hf : ∀ a, RaisesOnly ks (f a)) : RaisesOnly ks (x >>= f) := by
  intro s k t h
  rw [M.bind_apply] at h
  cases hs : x s with
  | ok a u => rw [hs] at h; exact hf a u k t h
  | error j u => rw [hs] at h; cases h; exact hx s _ _ hs

theorem raisesOnly_pure (a : α) : RaisesOnly ks (pure a : M α) := fun _ _ _ h => by cases h
theorem raisesOnly_look (f : State → α) : RaisesOnly ks (look f) := fun _ _ _ h => by cases h
theorem raisesOnly_update (f : State → State) : RaisesOnly ks (update f) := fun _ _ _ h => by cases h
theorem raisesOnly_raise {k : ErrKind} (hk : k ∈ ks) : RaisesOnly ks (raise k : M α) := fun _ _ _ h => by cases h; exact hk
theorem raisesOnly_raiseIf {k : ErrKind} (c : Prop) [Decidable c] (hk : k ∈ ks) : RaisesOnly ks (raiseIf k c) := by
  intro s j t h
  rw [raiseIf_apply] at h
  split at h <;> cases h
  exact hk

section Underflow
variable (h : ErrKind.stackUnderflow ∈ ks)
include h

theorem raisesOnly_popDiscard : RaisesOnly ks popDiscard :=
  raisesOnly_bind (raisesOnly_look _) fun _ => raisesOnly_bind (raisesOnly_raiseIf _ h) fun _ => raisesOnly_update _

theorem raisesOnly_popData : RaisesOnly ks popData :=
  raisesOnly_bind (raisesOnly_popDiscard h) fun _ => raisesOnly_bind (raisesOnly_look _) fun _ => raisesOnly_look _

theorem raisesOnly_popSigned : RaisesOnly ks popSigned := raisesOnly_bind (raisesOnly_popData h) fun _ => raisesOnly_pure _

theorem raisesOnly_popWords : ∀ n, RaisesOnly ks (popWords n)
  | 0 => raisesOnly_pure _
  | n + 1 => raisesOnly_bind (raisesOnly_popData h) fun _ => raisesOnly_bind (raisesOnly_popWords n) fun _ => raisesOnly_pure _

theorem raisesOnly_discardWords : ∀ n, RaisesOnly ks (discardWords n)
  | 0 => raisesOnly_pure _
  | n + 1 => raisesOnly_bind (raisesOnly_popDiscard h) fun _ => raisesOnly_discardWords n

end Underflow

section Overflow
variable (h : ErrKind.stackOverflow ∈ ks)
include h

theorem raisesOnly_pushData (v : Word) : RaisesOnly ks (pushData v) :=
  raisesOnly_bind (raisesOnly_look _) fun _ => raisesOnly_bind (raisesOnly_look _) fun _ =>
    raisesOnly_bind (raisesOnly_raiseIf _ h) fun _ => raisesOnly_bind (raisesOnly_update _) fun _ => raisesOnly_update _

theorem raisesOnly_pushWords : ∀ vs, RaisesOnly ks (pushWords vs)
  | [] => raisesOnly_pure _
  | v :: vs => raisesOnly_bind (raisesOnly_pushData h v) fun _ => raisesOnly_pushWords vs

end Overflow

section Bounds
variable (h : ErrKind.dataAccessViolation ∈ ks)
include h

theorem raisesOnly_checkDataBounds (a : Word) : RaisesOnly ks (checkDataBounds a) :=
  raisesOnly_bind (raisesOnly_look _) fun _ => raisesOnly_bind (raisesOnly_look _) fun _ => raisesOnly_raiseIf _ h

theorem raisesOnly_storeWords : ∀ a vs, RaisesOnly ks (storeWords a vs)
  | _, [] => raisesOnly_pure _
  | a, _ :: vs => raisesOnly_bind (raisesOnly_checkDataBounds h a) fun _ => raisesOnly_bind (raisesOnly_update _) fun _ =>
    raisesOnly_storeWords (a + 1) vs

theorem raisesOnly_loadBlock (ho : ErrKind.stackOverflow ∈ ks) : ∀ a n, RaisesOnly ks (loadBlock a n)
  | _, 0 => raisesOnly_pure _
  | a, n + 1 => raisesOnly_bind (raisesOnly_checkDataBounds h a) fun _ => raisesOnly_bind (raisesOnly_look _) fun _ =>
    raisesOnly_bind (raisesOnly_pushData ho _) fun _ => raisesOnly_loadBlock ho (a + 1) n

end Bounds

theorem raisesOnly_countOf (d : Word) (h : ErrKind.illegalInstruction ∈ ks) : RaisesOnly ks (countOf d) :=
  raisesOnly_bind (raisesOnly_raiseIf _ h) fun _ => raisesOnly_pure _

theorem raisesOnly_staticLink (n : BitVec 8) (h : ErrKind.illegalInstruction ∈ ks) : RaisesOnly ks (staticLink n) := by
  unfold staticLink
  split
  · exact raisesOnly_look _
  · exact raisesOnly_raise h

theorem raisesOnly_jumpTo (t : Word) (h : ErrKind.codeAccessViolation ∈ ks) : RaisesOnly ks (jumpTo t) :=
  raisesOnly_bind (raisesOnly_look _) fun _ => raisesOnly_bind (raisesOnly_raiseIf _ h) fun _ => raisesOnly_update _

theorem raisesOnly_inRead (h : ErrKind.ioFault ∈ ks) : RaisesOnly ks inRead := by
  intro s k t he
  unfold inRead at he
  split at he <;> cases he
  exact h

theorem raisesOnly_readLine (h : ErrKind.ioFault ∈ ks) : ∀ bytes, RaisesOnly ks (readLine bytes)
  | [] => raisesOnly_bind (raisesOnly_inRead h) fun _ => raisesOnly_pure _
  | _ :: rest => raisesOnly_bind (raisesOnly_inRead h) fun _ => by
    split
    · exact raisesOnly_pure _
    · exact raisesOnly_readLine h rest

theorem raisesOnly_parseInput (h : ErrKind.ioFault ∈ ks) : RaisesOnly ks parseInput := by
  intro s k t he
  unfold parseInput at he
  split at he <;> cases he
  exact h

/-! ## The data words touched -/

/-- Whichever way `x` ends, it changes only data words at the addresses `T` says of the state it runs on. -/
def TouchesOnly (T : State → Word → Prop) (x : M α) : Prop := Keeps (fun s t => ∀ a, ¬ T s a → t.dataAt a = s.dataAt a) x

theorem inBlock_next {base a : Word} {n : Nat} (h : InBlock (base + 1) n a) : InBlock base (n + 1) a := by
  obtain ⟨k, hk, rfl⟩ := h
  exact ⟨k + 1, by omega, by rw [Nat.add_comm k 1]; exact add_ofNat_add base 1 k⟩

theorem inBlock_first {base : Word} {n : Nat} : InBlock base (n + 1) base := ⟨0, by omega, by simp⟩

theorem touchesOnly_pushData (v : Word) : TouchesOnly (fun s a => a = s.reg .st) (pushData v) := by
  intro s
  by_cases h : s.reg .ht ≤ s.reg .st
  · rw [pushData_full v h]
    exact fun _ _ => rfl
  · rw [pushData_room v (BitVec.not_le.mp h)]
    intro a ha
    rw [State.dataAt_setReg, State.dataAt_setData, if_neg ha]

theorem touchesOnly_pushWords (vs : List Word) : TouchesOnly (fun s => InBlock (s.reg .st) vs.length) (pushWords vs) := by
  induction vs with
  | nil => exact fun s a _ => rfl
  | cons v vs ih =>
    intro s
    by_cases h : s.reg .ht ≤ s.reg .st
    · simp only [pushWords, M.bind_apply, pushData_full v h]
      intros; trivial
    · simp only [pushWords, M.bind_apply, pushData_room v (BitVec.not_le.mp h)]
      have hs := ih ((s.setData (s.reg .st) v).setReg .st (s.reg .st + 1))
      cases hp : pushWords vs ((s.setData (s.reg .st) v).setReg .st (s.reg .st + 1)) <;> rw [hp] at hs <;> intro a ha
      all_goals
        rw [hs a fun hb => ha (inBlock_next (by simpa using hb)), State.dataAt_setReg, State.dataAt_setData,
          if_neg (by rintro rfl; exact ha inBlock_first)]

theorem touchesOnly_storeWords (vs : List Word) (a : Word) : TouchesOnly (fun _ => InBlock a vs.length) (storeWords a vs) := by
  induction vs generalizing a with
  | nil => exact fun s b _ => rfl
  | cons v vs ih =>
    intro s
    by_cases h : s.reg .st ≤ a ∧ a ≤ s.reg .ht
    · simp only [storeWords, M.bind_apply, checkDataBounds_gap h]
      intros; trivial
    · simp only [storeWords, M.bind_apply, checkDataBounds_clear h, update_apply]
      have hs := ih (a + 1) (s.setData a v)
      cases hp : storeWords (a + 1) vs (s.setData a v) <;> rw [hp] at hs <;> intro b hb
      all_goals rw [hs b fun hc => hb (inBlock_next hc), State.dataAt_setData, if_neg (by rintro rfl; exact hb inBlock_first)]

theorem touchesOnly_loadBlock (n : Nat) (a : Word) : TouchesOnly (fun s => InBlock (s.reg .st) n) (loadBlock a n) := by
  induction n generalizing a with
  | zero => exact fun s b _ => rfl
  | succ n ih =>
    intro s
    by_cases h : s.reg .st ≤ a ∧ a ≤ s.reg .ht
    · simp only [loadBlock, M.bind_apply, checkDataBounds_gap h]
      intros; trivial
    · by_cases hf : s.reg .ht ≤ s.reg .st
      · simp only [loadBlock, M.bind_apply, checkDataBounds_clear h, look_apply, pushData_full _ hf]
        intros; trivial
      · simp only [loadBlock, M.bind_apply, checkDataBounds_clear h, look_apply, pushData_room _ (BitVec.not_le.mp hf)]
        have hs := ih (a + 1) ((s.setData (s.reg .st) (s.dataAt a)).setReg .st (s.reg .st + 1))
        cases hp : loadBlock (a + 1) n ((s.setData (s.reg .st) (s.dataAt a)).setReg .st (s.reg .st + 1)) <;> rw [hp] at hs <;>
          intro b hb
        all_goals
          rw [hs b fun hc => hb (inBlock_next (by simpa using hc)), State.dataAt_setReg, State.dataAt_setData,
            if_neg (by rintro rfl; exact hb inBlock_first)]

end Sys2Proof.Machine
end

