-- ==== Sys2Proof/Tests/Slice0.lean ====
section
/-! SUPPORT. Tests. Expected results are those of 95_test_vectors.md (named in each test), 30_encoding.md section 9, or a rule named there; none is the
model's own answer. The last part shows, for each statement with hypotheses, that something meets them. -/

namespace Sys2Proof.Tests

open Sys2Proof.Machine

/-! ## Helpers -/

/-- A machine loaded with code words and input, with the given words on its stack. -/
def machine (code : List CodeWord) (stack : List Word) (input : List Byte := []) : State :=
  { State.unloaded.loaded code input with data := Memory.ofWords 0 stack }.setReg .st (BitVec.ofNat 16 stack.length)

/-- A machine with one code word and padding up to `CT` = 9. -/
def padded (w : CodeWord) (stack : List Word) (input : List Byte := []) : State :=
  machine (w :: List.replicate 8 0xF0000000) stack input

/-- The words on the stack, signed, bottom first. -/
def stackOf : Host.Outcome State Fault Refusal → Option (List Int)
  | .next t => some ((List.range t.top).map fun k => (t.dataAt (BitVec.ofNat 16 k)).toInt)
  | _ => none

/-- STATUS, ERR, FADDR, `CP`, `ST`. -/
def reportOf : Host.Outcome State Fault Refusal → Option (Status × ErrKind × Nat × Nat × Nat)
  | .next t => some (t.status, t.err, t.faddr.toNat, (t.reg .cp).toNat, (t.reg .st).toNat)
  | _ => none

/-- `ST`, `LB`, `CP`. -/
def pointersOf : Host.Outcome State Fault Refusal → Option (Nat × Nat × Nat)
  | .next t => some ((t.reg .st).toNat, (t.reg .lb).toNat, (t.reg .cp).toNat)
  | _ => none

/-- Some data words, signed. -/
def dataOf (addresses : List Nat) : Host.Outcome State Fault Refusal → Option (List Int)
  | .next t => some (addresses.map fun a => (t.dataAt (BitVec.ofNat 16 a)).toInt)
  | _ => none

/-- What is left of the input, and the output. -/
def streamsOf : Host.Outcome State Fault Refusal → Option (List Byte × List Byte)
  | .next t => some (t.input, t.output)
  | _ => none

/-! ## WellFormed: the one check refuses an ill-formed term -/

theorem test_wf_refuses_primitive_call : (Instr.call .pb 0 1).wf = false ∧ (Instr.call .pb 255 28).wf = false := by decide
theorem test_wf_accepts_frame_call :
    (Instr.call .pb 0 0).wf = true ∧ (Instr.call .pb 0 29).wf = true ∧ (Instr.call .pb 0 0xFFFF).wf = true ∧ (Instr.call .cb 0 8).wf = true := by
  decide

/-! ## Decode: words written out from the fields (30_encoding.md R51, R55, R58, section 9) -/

theorem test_decode_load : decode (0b0000#4 ++ 0b1000#4 ++ 0x01#8 ++ 0xFFFF#16) = .load .lb 1 0xFFFF := by decide
theorem test_decode_loada : decode (0b0001#4 ++ 0b0100#4 ++ 0x00#8 ++ 0x8000#16) = .loada .sb 0x8000 := by decide
theorem test_decode_loadi : decode (0b0010#4 ++ 0b0000#4 ++ 0xFF#8 ++ 0x0000#16) = .loadi 255 := by decide
theorem test_decode_loadl : decode (0b0011#4 ++ 0b0000#4 ++ 0x00#8 ++ 0x0005#16) = .loadl 5 := by decide
theorem test_decode_store : decode (0b0100#4 ++ 0b0100#4 ++ 0x02#8 ++ 0x0003#16) = .store .sb 2 3 := by decide
theorem test_decode_storei : decode (0b0101#4 ++ 0b0000#4 ++ 0x02#8 ++ 0x0000#16) = .storei 2 := by decide
theorem test_decode_reserved : decode (0b0110#4 ++ 0b0000#4 ++ 0x00#8 ++ 0x0000#16) = .reserved6 := by decide
theorem test_decode_reserved7 : decode (0b0111#4 ++ 0b1111#4 ++ 0xFF#8 ++ 0xFFFF#16) = .reserved7 := by decide
theorem test_decode_call : decode (0b1000#4 ++ 0b0000#4 ++ 0x04#8 ++ 0x0004#16) = .call .cb 4 4 := by decide
theorem test_decode_ret : decode (0b1001#4 ++ 0b0000#4 ++ 0x01#8 ++ 0x0001#16) = .ret 1 1 := by decide
theorem test_decode_push : decode (0b1010#4 ++ 0b0000#4 ++ 0x00#8 ++ 0x0003#16) = .push 3 := by decide
theorem test_decode_pop : decode (0b1011#4 ++ 0b0000#4 ++ 0x01#8 ++ 0x0002#16) = .pop 1 2 := by decide
theorem test_decode_jump : decode (0b1100#4 ++ 0b0000#4 ++ 0x00#8 ++ 0x0001#16) = .jump .cb 1 := by decide
theorem test_decode_jumpi : decode (0b1101#4 ++ 0b0000#4 ++ 0x00#8 ++ 0x0000#16) = .jumpi := by decide
theorem test_decode_jumpif : decode (0b1110#4 ++ 0b0000#4 ++ 0x00#8 ++ 0x0008#16) = .jumpif .cb 0 8 := by decide
theorem test_decode_halt : decode (0b1111#4 ++ 0b1010#4 ++ 0xBC#8 ++ 0xDEF0#16) = .halt := by decide

/-- Every primitive word, `0x82000000` plus the identifier (R57, R58). -/
theorem test_decode_primitives_low :
    decode 0x82000001 = .primId ∧ decode 0x82000002 = .primNot ∧ decode 0x82000003 = .primAnd ∧ decode 0x82000004 = .primOr ∧
    decode 0x82000005 = .primSucc ∧ decode 0x82000006 = .primPred ∧ decode 0x82000007 = .primNeg ∧ decode 0x82000008 = .primAdd ∧
    decode 0x82000009 = .primSub ∧ decode 0x8200000A = .primMult ∧ decode 0x8200000B = .primDiv ∧ decode 0x8200000C = .primMod ∧
    decode 0x8200000D = .primLt ∧ decode 0x8200000E = .primLe := by
  decide
theorem test_decode_primitives_high :
    decode 0x8200000F = .primGe ∧ decode 0x82000010 = .primGt ∧ decode 0x82000011 = .primEq ∧ decode 0x82000012 = .primNeq ∧
    decode 0x82000013 = .primEol ∧ decode 0x82000014 = .primEof ∧ decode 0x82000015 = .primGet ∧ decode 0x82000016 = .primPut ∧
    decode 0x82000017 = .primGeteol ∧ decode 0x82000018 = .primPuteol ∧ decode 0x82000019 = .primGetint ∧
    decode 0x8200001A = .primPutint ∧ decode 0x8200001B = .primReserved27 ∧ decode 0x8200001C = .primReserved28 := by
  decide

/-- The edges of the primitive identifiers, and a field `N` that is not looked at (R57, 95_test_vectors.md V-C8 to V-C12). -/
theorem test_decode_primitive_edges :
    decode 0x82000000 = .call .pb 0 0 ∧ decode 0x8200001D = .call .pb 0 29 ∧ decode 0x8200FFFF = .call .pb 0 0xFFFF ∧
    decode 0x82FF0008 = .primAdd ∧ decode 0x81000008 = .call .ct 0 8 := by
  decide

/-- 95_test_vectors.md E6. -/
theorem test_fields : opField 0xFABCDEF0 = 15 ∧ rField 0xFABCDEF0 = 10 ∧ nField 0xFABCDEF0 = 188 ∧ (dField 0xFABCDEF0).toInt = -8464 := by decide

/-- Byte order of an image (20_memory.md R31, V-Z1), and what is too short. -/
theorem test_decode_bytes :
    decodeBytes [0x30, 0x00, 0x00, 0x05, 0xF0] = .ok (.loadl 5, [0xF0]) ∧ decodeBytes [0x30, 0x00, 0x00] = .error .truncated := ⟨rfl, rfl⟩
theorem test_decode_table_word : decodeTableWord 32 0x8200001A = some .primPutint ∧ decodeTableWord 32 0x60000000 = some .reserved6 := by decide
theorem test_encode_add : encode .primAdd = 0x82000008 ∧ encode (.store .sb 2 3) = 0x44020003 := by decide

/-! ## One step -/

/-- An instruction placed at the fetch runs as the first one after reset: 95_test_vectors.md V-L16, V-F3. -/
theorem test_first_after_reset :
    stackOf (step (State.reset.withFetchWord 32 0x30000005)) = some [5] ∧
    reportOf (step (State.reset.withFetchWord 32 0x60000000)) = some (.faulted, .illegalInstruction, 0, 1, 0) := by
  decide

/-- V-F1, V-F2. -/
theorem test_fetch_beyond :
    reportOf (step (machine [] [])) = some (.faulted, .codeAccessViolation, 0, 0, 0) ∧
    reportOf (step ((machine [0x30000001] []).setReg .cp 1)) = some (.faulted, .codeAccessViolation, 1, 1, 0) := by
  decide
/-- V-F3. -/
theorem test_reserved6 :
    stackOf (step (machine [0x60000000] [7])) = some [7] ∧
    reportOf (step (machine [0x60000000] [7])) = some (.faulted, .illegalInstruction, 0, 1, 1) := by
  decide
/-- V-F4. -/
theorem test_reserved7 :
    reportOf (step (machine [0x7FFFFFFF] [7])) = some (.faulted, .illegalInstruction, 0, 1, 1) := by
  decide
/-- V-L5. -/
theorem test_load_overlap :
    stackOf (step (machine [0x0503FFFF] [7, 9])) = some [7, 9, 9, 9, 9] := by
  decide
/-- E3, V-L2. -/
theorem test_load_gap :
    reportOf (step (machine [0x0401FFFF] [7, 9])) = some (.faulted, .dataAccessViolation, 0, 1, 2) := by
  decide
/-- V-L10. -/
theorem test_loada_own_address :
    stackOf (step (machine [0x1F000000] [])) = some [1] := by
  decide
/-- V-L9. -/
theorem test_loada_wraps :
    stackOf (step (machine [0x1400FFFF] [])) = some [-1] := by
  decide
/-- V-L12. -/
theorem test_loadi :
    stackOf (step (machine [0x20010000] [42, 0, 0])) = some [42, 0, 42] := by
  decide
/-- V-L13. -/
theorem test_loadi_gap :
    reportOf (step (machine [0x20010000] [42, 0, 2])) = some (.faulted, .dataAccessViolation, 0, 1, 2) := by
  decide
/-- V-L18. -/
theorem test_loadl :
    stackOf (step (machine [0x30008000] [])) = some [-32768] := by
  decide
/-- E2. -/
theorem test_loadl_edges :
    reportOf (step ((machine [0x30000005] []).setReg .st 0xFFFF)) = some (.faulted, .stackOverflow, 0, 1, 65535) ∧
    reportOf (step ((machine [0x30000005] []).setReg .st 0xFFFE)) = some (.running, .none, 0, 1, 65535) := by
  decide
/-- V-S2. -/
theorem test_store :
    stackOf (step (machine [0x44020000] [0, 0, 7, 9])) = some [7, 9] := by
  decide
/-- V-S5. -/
theorem test_store_partial :
    dataOf [1, 2] (step (machine [0x44020001] [0, 0, 7, 9])) = some [7, 7] ∧
    reportOf (step (machine [0x44020001] [0, 0, 7, 9])) = some (.faulted, .dataAccessViolation, 0, 1, 2) := by
  decide
/-- V-S8. -/
theorem test_storei :
    stackOf (step (machine [0x50020000] [0, 0, 0, 5, 6])) = some [5, 6] := by
  decide
/-- V-S9. -/
theorem test_storei_short :
    reportOf (step (machine [0x50010000] [5])) = some (.faulted, .stackUnderflow, 0, 1, 0) := by
  decide
/-- V-A3, V-A2. -/
theorem test_push :
    reportOf (step ((machine [0xA0000004] []).setReg .st 65530)) = some (.running, .none, 0, 1, 65534) ∧
    reportOf (step ((machine [0xA0000005] []).setReg .st 65530)) = some (.faulted, .stackOverflow, 0, 1, 65530) := by
  decide
/-- V-A6. -/
theorem test_push_negative :
    reportOf (step (machine [0xA000FFFF] [1, 2])) = some (.faulted, .illegalInstruction, 0, 1, 2) := by
  decide
/-- V-A9. -/
theorem test_pop :
    stackOf (step (machine [0xB0020001] [1, 2, 3, 4])) = some [1, 3, 4] := by
  decide
/-- V-A10. -/
theorem test_pop_short :
    reportOf (step (machine [0xB0010004] [1, 2, 3, 4])) = some (.faulted, .stackUnderflow, 0, 1, 0) := by
  decide

/-- The machine of V-C1 to V-C7: the call is at address 1. -/
def caller (w : CodeWord) (stack : List Word) : State :=
  (machine ([0x30000007, w] ++ List.replicate 5 0xF0000000) stack).setReg .cp 1

/-- V-C3. -/
theorem test_call :
    dataOf [6, 7, 8] (step ((caller 0x80050004 [0, 0, 0, 0, 0, 0]).setReg .lb 3)) = some [6, 3, 2] ∧
    pointersOf (step ((caller 0x80050004 [0, 0, 0, 0, 0, 0]).setReg .lb 3)) = some (9, 6, 4) := by
  decide
/-- V-C7. -/
theorem test_call_overflow :
    dataOf [65533, 65534] (step ((caller 0x80040004 []).setReg .st 65533)) = some [0, 0] ∧
    reportOf (step ((caller 0x80040004 []).setReg .st 65533)) = some (.faulted, .stackOverflow, 1, 2, 65535) := by
  decide
/-- V-R1. -/
theorem test_ret :
    stackOf (step ((machine (0x90010001 :: List.replicate 3 0xF0000000) [7, 0, 0, 2, 8]).setReg .lb 1)) = some [8] ∧
    pointersOf (step ((machine (0x90010001 :: List.replicate 3 0xF0000000) [7, 0, 0, 2, 8]).setReg .lb 1)) = some (1, 0, 2) := by
  decide
/-- V-R3. -/
theorem test_ret_short :
    reportOf (step ((machine (0x90010002 :: List.replicate 3 0xF0000000) [7, 0, 0, 2, 8]).setReg .lb 1)) =
      some (.faulted, .stackUnderflow, 0, 1, 0) := by
  decide
/-- V-J3. -/
theorem test_jump :
    pointersOf (step (machine [0xCF00FFFF, 0xF0000000] [])) = some (0, 0, 0) := by
  decide
/-- E9. -/
theorem test_jump_to_top :
    reportOf (step (machine [0xC0000001] [])) = some (.faulted, .codeAccessViolation, 0, 1, 0) := by
  decide
/-- V-J8. -/
theorem test_jumpi :
    pointersOf (step (padded 0xD0000000 [3])) = some (0, 0, 3) := by
  decide
/-- V-J11. -/
theorem test_jumpi_unsigned :
    reportOf (step (padded 0xD0000000 [0xFFFF])) = some (.faulted, .codeAccessViolation, 0, 1, 0) := by
  decide
/-- V-J17. -/
theorem test_jumpif_taken :
    pointersOf (step (padded 0xE0FF0008 [255])) = some (0, 0, 8) := by
  decide
/-- V-J16. -/
theorem test_jumpif_signed :
    pointersOf (step (padded 0xE0FF0008 [0xFFFF])) = some (0, 0, 1) := by
  decide
/-- E8. -/
theorem test_halt :
    reportOf (step (machine [0xF0000000] [])) = some (.halted, .none, 0, 1, 0) := by
  decide
/-- V-P1. -/
theorem test_prim_id :
    stackOf (step (machine [0x82000001] [7])) = some [7] := by
  decide
/-- V-P5. -/
theorem test_prim_not :
    stackOf (step (machine [0x82000002] [5])) = some [0] := by
  decide
/-- V-P3. -/
theorem test_prim_not_zero :
    stackOf (step (machine [0x82000002] [0])) = some [1] := by
  decide
/-- V-P9. -/
theorem test_prim_and :
    stackOf (step (machine [0x82000003] [2, 3])) = some [6] := by
  decide
/-- V-P12. -/
theorem test_prim_or :
    stackOf (step (machine [0x82000004] [1, 1])) = some [2] := by
  decide
/-- V-P17. -/
theorem test_prim_succ :
    stackOf (step (machine [0x82000005] [32767])) = some [-32768] := by
  decide
/-- V-P19. -/
theorem test_prim_pred :
    stackOf (step (machine [0x82000006] [-32768])) = some [32767] := by
  decide
/-- V-P21. -/
theorem test_prim_neg :
    stackOf (step (machine [0x82000007] [-32768])) = some [-32768] := by
  decide
/-- V-P24. -/
theorem test_prim_add :
    stackOf (step (machine [0x82000008] [32767, 1])) = some [-32768] := by
  decide
/-- V-P28. -/
theorem test_prim_sub :
    stackOf (step (machine [0x82000009] [3, 5])) = some [-2] := by
  decide
/-- V-P32. -/
theorem test_prim_mult :
    stackOf (step (machine [0x8200000A] [200, 200])) = some [-25536] := by
  decide
/-- V-P36. -/
theorem test_prim_div :
    stackOf (step (machine [0x8200000B] [-7, 2])) = some [-3] := by
  decide
/-- V-P43. -/
theorem test_prim_mod :
    stackOf (step (machine [0x8200000C] [-7, 2])) = some [-1] := by
  decide
/-- V-P47. -/
theorem test_prim_mod_wraps :
    stackOf (step (machine [0x8200000C] [-32768, -1])) = some [0] := by
  decide
/-- V-P51. -/
theorem test_prim_lt :
    stackOf (step (machine [0x8200000D] [-1, 0])) = some [1] := by
  decide
/-- V-P54. -/
theorem test_prim_le :
    stackOf (step (machine [0x8200000E] [5, 3])) = some [0] := by
  decide
/-- V-P56. -/
theorem test_prim_ge :
    stackOf (step (machine [0x8200000F] [5, 3])) = some [1] := by
  decide
/-- V-P57. -/
theorem test_prim_ge_less :
    stackOf (step (machine [0x8200000F] [3, 5])) = some [0] := by
  decide
/-- V-P59. -/
theorem test_prim_gt :
    stackOf (step (machine [0x82000010] [5, 3])) = some [1] := by
  decide
/-- V-P60. -/
theorem test_prim_gt_less :
    stackOf (step (machine [0x82000010] [-1, 1])) = some [0] := by
  decide
/-- V-P64. -/
theorem test_prim_eq :
    stackOf (step (machine [0x82000011] [1, 2, 1, 2, 2])) = some [1] := by
  decide
/-- V-P69. -/
theorem test_prim_neq :
    stackOf (step (machine [0x82000012] [5, 6, 1])) = some [1] := by
  decide
/-- V-P70. -/
theorem test_prim_neq_empty :
    stackOf (step (machine [0x82000012] [0])) = some [0] := by
  decide
/-- V-P40. -/
theorem test_prim_div_zero :
    reportOf (step (machine [0x8200000B] [5, 0])) = some (.faulted, .arithmeticFault, 0, 1, 0) := by
  decide
/-- V-P26. -/
theorem test_prim_add_short :
    reportOf (step (machine [0x82000008] [4])) = some (.faulted, .stackUnderflow, 0, 1, 0) := by
  decide
/-- V-P66 (kind and stack). -/
theorem test_prim_eq_negative :
    reportOf (step (machine [0x82000011] [9, -1])) = some (.faulted, .illegalInstruction, 0, 1, 1) := by
  decide
/-- V-I1, V-I3. -/
theorem test_prim_eol :
    stackOf (step (machine [0x82000013] [] [0x0A, 0x61])) = some [1] ∧ stackOf (step (machine [0x82000013] [])) = some [0] := by
  decide
/-- V-I5, V-I6. -/
theorem test_prim_eof :
    stackOf (step (machine [0x82000014] [])) = some [1] ∧ stackOf (step (machine [0x82000014] [] [0x78])) = some [0] := by
  decide
/-- V-I10. -/
theorem test_prim_get :
    stackOf (step (machine [0x82000015] [0, 0] [0xFF])) = some [255] ∧ streamsOf (step (machine [0x82000015] [0, 0] [0xFF])) = some ([], []) := by
  decide
/-- V-I9. -/
theorem test_prim_get_end :
    reportOf (step (machine [0x82000015] [0, 0])) = some (.faulted, .ioFault, 0, 1, 1) := by
  decide
/-- V-I13. -/
theorem test_prim_put :
    streamsOf (step (machine [0x82000016] [321])) = some ([], [0x41]) := by
  decide
/-- V-I16. -/
theorem test_prim_geteol :
    streamsOf (step (machine [0x82000017] [] [0x31, 0x32, 0x0A, 0x61])) = some ([0x61], []) := by
  decide
/-- V-I17. -/
theorem test_prim_geteol_end :
    reportOf (step (machine [0x82000017] [] [0x31, 0x32])) = some (.faulted, .ioFault, 0, 1, 0) := by
  decide
/-- V-I18. -/
theorem test_prim_puteol :
    streamsOf (step (machine [0x82000018] [])) = some ([], [0x0A]) := by
  decide
/-- V-I20. -/
theorem test_prim_getint_gap :
    streamsOf (step (machine [0x82000019] [0, 5] [0x34, 0x32])) = some ([0x34, 0x32], []) ∧
    reportOf (step (machine [0x82000019] [0, 5] [0x34, 0x32])) = some (.faulted, .dataAccessViolation, 0, 1, 1) := by
  decide
/-- V-I25. -/
theorem test_prim_putint :
    streamsOf (step (machine [0x8200001A] [-32768])) = some ([], [0x2D, 0x33, 0x32, 0x37, 0x36, 0x38]) := by
  decide
/-- V-I24. -/
theorem test_prim_putint_zero :
    streamsOf (step (machine [0x8200001A] [0])) = some ([], [0x30]) := by
  decide
/-- V-C11. -/
theorem test_prim_reserved :
    reportOf (step (machine [0x8200001B] [1])) = some (.faulted, .illegalInstruction, 0, 1, 1) ∧
    reportOf (step (machine [0x8200001C] [1])) = some (.faulted, .illegalInstruction, 0, 1, 1) := by
  decide

/-! ## The load, and the stores -/

/-- V-Z1. -/
theorem test_load : ∃ t, load [0x30, 0, 0, 5, 0xF0, 0, 0, 0] [] State.unloaded = .ok () t ∧ t.codeAt 0 = 0x30000005 ∧ t.codeAt 1 = 0xF0000000 ∧
    t.codeAt 2 = 0 ∧ t.reg .ct = 2 ∧ t.reg .pt = 31 ∧ t.reg .ht = 0xFFFF ∧ t.status = .running := ⟨_, rfl, by decide⟩
/-- V-Z2. -/
theorem test_load_refused : load [0x30, 0, 0, 5, 0xF0] [] State.reset = .error .fileLength State.reset := rfl
/-- V-Z4: `PT` wraps. -/
theorem test_load_largest : (BitVec.ofNat 16 65535 + 29 : Word) = 28 := by decide
/-- 20_memory.md R32: a word of 0 leaves no cell. -/
theorem test_memory_canonical : Memory.write (Memory.write [] 7 (5 : Word)) 7 0 = [] ∧ Memory.read (Memory.write [] 7 (5 : Word)) 7 = 5 := by decide

/-! ## Something meets the hypotheses of each statement (the name says which) -/

theorem test_meets_EncodedInstructionDecodesToItself :
    (Instr.call .pb 255 0).wf = true ∧ (Instr.call .pb 0 29).wf = true ∧ (Instr.load .cp 255 0x8000).wf = true := by
  decide
theorem test_meets_DecodeIgnoresUnreadFields_n :
    opField 0x2F01FFFF = opField 0x20010000 ∧ opMap (opField 0x2F01FFFF) = .loadi ∧ nField 0x2F01FFFF = nField 0x20010000 := by
  decide
theorem test_meets_DecodeIgnoresUnreadFields_d :
    opField 0x3FFF0005 = opField 0x30000005 ∧ opMap (opField 0x3FFF0005) = .loadl ∧ dField 0x3FFF0005 = dField 0x30000005 := by
  decide
theorem test_meets_DecodeIgnoresUnreadFields_rd :
    opField 0x18FF0003 = opField 0x18000003 ∧ opMap (opField 0x18FF0003) = .loada ∧ rField 0x18FF0003 = rField 0x18000003 ∧
    dField 0x18FF0003 = dField 0x18000003 := by
  decide
theorem test_meets_DecodeIgnoresUnreadFields_nd :
    opField 0x9F010001 = opField 0x90010001 ∧ opMap (opField 0x9F010001) = .ret ∧ nField 0x9F010001 = nField 0x90010001 ∧
    dField 0x9F010001 = dField 0x90010001 := by
  decide
theorem test_meets_DecodeIgnoresUnreadFields_call :
    opMap (opField 0x82FF001C) = .call ∧ rField 0x82FF001C = rField 0x8200001C ∧ dField 0x82FF001C = dField 0x8200001C ∧
    selectsPrimitive (regMap (rField 0x82FF001C)) (dField 0x82FF001C) = true ∧ opField 0x82FF001C = opField 0x8200001C := by
  decide
theorem test_meets_DecodeIgnoresUnreadFields_none :
    opField 0xFABCDEF0 = opField 0xF0000000 ∧ opMap (opField 0xFABCDEF0) = .halt := by
  decide
theorem test_meets_DecodeIgnoresUnreadFields_rnd :
    opField 0x08010003 = opField 0x08010003 ∧ opMap (opField 0x08010003) = .load ∧ opMap (opField 0x44020003) = .store ∧
    opMap (opField 0xE0000008) = .jumpif ∧ rField 0x08010003 = rField 0x08010003 ∧ nField 0x08010003 = nField 0x08010003 ∧
    dField 0x08010003 = dField 0x08010003 := by
  decide
theorem test_meets_DecodeIgnoresUnreadFields_frame :
    opField 0x80040004 = opField 0x80040004 ∧ opMap (opField 0x80040004) = .call ∧ rField 0x80040004 = rField 0x80040004 ∧
    dField 0x80040004 = dField 0x80040004 ∧ selectsPrimitive (regMap (rField 0x80040004)) (dField 0x80040004) = false ∧
    nField 0x80040004 = nField 0x80040004 := by
  decide
theorem test_meets_DecodeIgnoresUnreadFields_reserved :
    opField 0x6FFFFFFF = opField 0x60000000 ∧ opMap (opField 0x6FFFFFFF) = .reserved6 ∧ opField 0x7FFFFFFF = opField 0x70000000 ∧
    opMap (opField 0x7FFFFFFF) = .reserved7 ∧ opField 0xDFFFFFFF = opField 0xD0000000 ∧ opMap (opField 0xDFFFFFFF) = .jumpi := by
  decide
theorem test_meets_PrimitivesSelectedByFields :
    rowOf (decode 0x82FF0001) = .prim 1 ∧ rowOf (decode 0x8200001C) = .prim 28 := by
  decide
theorem test_meets_StepRunsDecodedInstruction :
    (machine [0xF0000000] []).status = .running ∧ (machine [0xF0000000] []).reg .cp < (machine [0xF0000000] []).reg .ct := by
  decide
theorem test_meets_FetchAtCodeTopFaults :
    State.reset.status = .running ∧ State.reset.reg .ct ≤ State.reset.reg .cp := by
  decide
theorem test_meets_EndedRunTakesNoStep :
    State.reset.halt.Ended ∧ (State.reset.faulted .ioFault).Ended ∧ ∃ t, load [] [0x41] State.reset.halt = .ok () t := ⟨by decide, by decide, _, rfl⟩
theorem test_meets_LoadEstablishesResetState :
    ([] : List Byte).length = 4 * 0 ∧ (List.replicate (4 * 65535) (0 : Byte)).length = 4 * 65535 := ⟨rfl, List.length_replicate⟩
theorem test_meets_RefusedLoadChangesNothing :
    ([1, 2, 3, 4, 5] : List Byte).length % 4 ≠ 0 ∧ 65535 < (List.replicate 262144 (0 : Byte)).length / 4 := ⟨by decide, by rw [List.length_replicate]; decide⟩
theorem test_meets_FaultEntry :
    (raise .ioFault : M Unit) State.reset = .error .ioFault State.reset := rfl
theorem test_meets_FaultReportNamesInstruction :
    (machine [0xF0000000] []).HeapPinned ∧ (∃ t, step (machine [0xF0000000] []) = .next t) ∧ State.reset.HeapPinned ∧ ∃ t, step State.reset = .next t := ⟨by decide, ⟨_, rfl⟩, by decide, ⟨_, rfl⟩⟩
theorem test_meets_RunEndsWellOnlyAtHalt :
    (machine [0xF0000000] []).ErrClear ∧ ∃ t, step (machine [0xF0000000] []) = .next t ∧ t.EndedWell := ⟨by decide, _, rfl, rfl⟩

/-- A machine whose stack holds the given words up to address 9 of the data store, with the stack top placed elsewhere. -/
def toppedAt (st : Word) (words : List Word) : State := (machine (List.replicate 9 0xF0000000) words).setReg .st st

theorem test_meets_HaltStopsRun :
    (machine [0xF0000000] []).status = .running ∧ (machine [0xF0000000] []).reg .cp < (machine [0xF0000000] []).reg .ct ∧
    decode ((machine [0xF0000000] []).codeAt 0) = .halt := by
  decide
theorem test_meets_LoadPushesBlock :
    (toppedAt 0xFFFD [7]).HeapPinned ∧ (toppedAt 0xFFFD [7]).calcAddress .sb 0 < (toppedAt 0xFFFD [7]).reg .st ∧
    (toppedAt 0xFFFD [7]).top + (2 : BitVec 8).toNat ≤ 65535 := by
  decide
theorem test_meets_LoadBlockFaults_gap :
    (1 : BitVec 8) ≠ 0 ∧ (toppedAt 2 []).reg .st ≤ (toppedAt 2 []).calcAddress .sb 2 ∧ (toppedAt 2 []).calcAddress .sb 2 ≤ (toppedAt 2 []).reg .ht := by
  decide
theorem test_meets_LoadBlockFaults_full :
    ¬ ((toppedAt 0xFFFF []).reg .st ≤ (toppedAt 0xFFFF []).calcAddress .sb 0 ∧
      (toppedAt 0xFFFF []).calcAddress .sb 0 ≤ (toppedAt 0xFFFF []).reg .ht) ∧ (toppedAt 0xFFFF []).reg .ht ≤ (toppedAt 0xFFFF []).reg .st := by
  decide
theorem test_meets_LoadBlockFaults_indirect :
    (toppedAt 0 []).reg .st = 0 ∧ (toppedAt 1 [9]).reg .st ≠ 0 ∧ (toppedAt 1 [9]).reg .st - 1 ≤ (toppedAt 1 [9]).below 0 ∧
    (toppedAt 1 [9]).below 0 ≤ (toppedAt 1 [9]).reg .ht := by
  decide
theorem test_meets_LoadBlockFaults_partly :
    (toppedAt 0xFFFE [7]).HeapPinned ∧ (toppedAt 0xFFFE [7]).calcAddress .sb 0 < (toppedAt 0xFFFE [7]).reg .st ∧
    65535 < (toppedAt 0xFFFE [7]).top + (2 : BitVec 8).toNat := by
  decide
theorem test_meets_LoadBlockFaults_partly_indirect :
    (toppedAt 0xFFFF [7]).HeapPinned ∧ (toppedAt 0xFFFF [7]).reg .st ≠ 0 ∧
    (toppedAt 0xFFFF [7]).below 0 < (toppedAt 0xFFFF [7]).reg .st - 1 ∧ 65535 < (toppedAt 0xFFFF [7]).top - 1 + (2 : BitVec 8).toNat := by
  decide
theorem test_meets_LoadaPushesAddress :
    (toppedAt 0xFFFE []).reg .st < (toppedAt 0xFFFE []).reg .ht ∧ (toppedAt 0xFFFF []).reg .ht ≤ (toppedAt 0xFFFF []).reg .st := by
  decide
theorem test_meets_LoadlPushesLiteral :
    (toppedAt 0 []).reg .st < (toppedAt 0 []).reg .ht ∧ (toppedAt 0xFFFF []).reg .ht ≤ (toppedAt 0xFFFF []).reg .st := by
  decide
theorem test_meets_LoadiPushesBlock :
    (toppedAt 2 [9, 0]).HeapPinned ∧ (toppedAt 2 [9, 0]).reg .st ≠ 0 ∧ (toppedAt 2 [9, 0]).below 0 < (toppedAt 2 [9, 0]).reg .st - 1 ∧
    (toppedAt 2 [9, 0]).top - 1 + (1 : BitVec 8).toNat ≤ 65535 := by
  decide
theorem test_meets_StoreWritesBlock :
    (2 : BitVec 8).toNat ≤ (toppedAt 4 []).top ∧ ((toppedAt 4 []).calcAddress .sb 0).toNat + (2 : BitVec 8).toNat ≤ (toppedAt 4 []).top - (2 : BitVec 8).toNat := by
  decide
theorem test_meets_StoreiWritesBlock :
    (1 : BitVec 8).toNat + 1 ≤ (toppedAt 3 []).top ∧ ((toppedAt 3 []).below 1).toNat + (1 : BitVec 8).toNat ≤ (toppedAt 3 []).top - ((1 : BitVec 8).toNat + 1) := by
  decide
theorem test_meets_StoreFaultsBeforeWriting :
    (toppedAt 1 []).top < (2 : BitVec 8).toNat ∧ (1 : BitVec 8).toNat ≤ (toppedAt 3 []).top ∧
    (toppedAt 3 []).reg .st - BitVec.ofNat 16 1 ≤ (toppedAt 3 []).calcAddress .sb 2 ∧ (toppedAt 3 []).calcAddress .sb 2 ≤ (toppedAt 3 []).reg .ht := by
  decide
theorem test_meets_StoreFaultsBeforeWriting_indirect :
    (toppedAt 1 []).top < (1 : BitVec 8).toNat + 1 ∧ (1 : BitVec 8).toNat + 1 ≤ (toppedAt 3 [0, 1, 5]).top ∧
    (toppedAt 3 [0, 1, 5]).reg .st - BitVec.ofNat 16 2 ≤ (toppedAt 3 [0, 1, 5]).below 1 ∧ (toppedAt 3 [0, 1, 5]).below 1 ≤ (toppedAt 3 [0, 1, 5]).reg .ht := by
  decide
theorem test_meets_StoreStopsAtTheGap :
    (toppedAt 4 []).HeapPinned ∧ (2 : BitVec 8).toNat ≤ (toppedAt 4 []).top ∧
    ((toppedAt 4 []).calcAddress .sb 1).toNat < (toppedAt 4 []).top - (2 : BitVec 8).toNat ∧
    (toppedAt 4 []).top - (2 : BitVec 8).toNat < ((toppedAt 4 []).calcAddress .sb 1).toNat + (2 : BitVec 8).toNat := by
  decide
theorem test_meets_StoreStopsAtTheGap_indirect :
    (toppedAt 5 [0, 0, 1, 5, 6]).HeapPinned ∧ (2 : BitVec 8).toNat + 1 ≤ (toppedAt 5 [0, 0, 1, 5, 6]).top ∧
    ((toppedAt 5 [0, 0, 1, 5, 6]).below 2).toNat < (toppedAt 5 [0, 0, 1, 5, 6]).top - ((2 : BitVec 8).toNat + 1) ∧
    (toppedAt 5 [0, 0, 1, 5, 6]).top - ((2 : BitVec 8).toNat + 1) < ((toppedAt 5 [0, 0, 1, 5, 6]).below 2).toNat + (2 : BitVec 8).toNat := by
  decide
theorem test_meets_PushReservesWords :
    0 ≤ (4 : Word).toInt ∧ (toppedAt 65530 []).top + (4 : Word).toNat < ((toppedAt 65530 []).reg .ht).toNat ∧
    ((toppedAt 65530 []).reg .ht).toNat ≤ (toppedAt 65530 []).top + (5 : Word).toNat ∧ (0x8000 : Word).toInt < 0 := by
  decide
theorem test_meets_PopRemovesBlock :
    (toppedAt 4 []).HeapPinned ∧ 0 ≤ (3 : Word).toInt ∧ (1 : BitVec 8).toNat + (3 : Word).toNat ≤ (toppedAt 4 []).top := by
  decide
theorem test_meets_PopAndReturnFaults :
    (0xFFFF : Word).toInt < 0 ∧ 0 ≤ (4 : Word).toInt ∧ (toppedAt 4 []).top < (1 : BitVec 8).toNat + (4 : Word).toNat ∧
    ((toppedAt 4 []).reg .lb).toNat < (4 : Word).toNat ∧ (toppedAt 4 []).top < (5 : BitVec 8).toNat := by
  decide
theorem test_meets_PopAndReturnFaults_overflow :
    ((toppedAt 1 [8]).setReg .lb 0xFFFF).HeapPinned ∧ 0 ≤ (0 : Word).toInt ∧ (1 : BitVec 8).toNat ≤ ((toppedAt 1 [8]).setReg .lb 0xFFFF).top ∧
    (0 : Word).toNat ≤ (((toppedAt 1 [8]).setReg .lb 0xFFFF).reg .lb).toNat ∧
    65535 < (((toppedAt 1 [8]).setReg .lb 0xFFFF).reg .lb).toNat - (0 : Word).toNat + (1 : BitVec 8).toNat := by
  decide
theorem test_meets_CallBuildsFrame :
    selectsPrimitive .cb 8 = false ∧ (toppedAt 0xFFFC []).HeapPinned ∧ (toppedAt 0xFFFC []).calcAddress .cb 8 < (toppedAt 0xFFFC []).reg .ct ∧
    (15 : BitVec 8) = (regNumber .cp).setWidth 8 ∧ (toppedAt 0xFFFC []).top + 3 ≤ 65535 := by
  decide
theorem test_meets_CallOverflowKeepsPushes_FFFD :
    selectsPrimitive .cb 8 = false ∧ (toppedAt 0xFFFD []).HeapPinned ∧ (toppedAt 0xFFFD []).calcAddress .cb 8 < (toppedAt 0xFFFD []).reg .ct ∧
    (15 : BitVec 8) = (regNumber .cp).setWidth 8 ∧ 65535 < (toppedAt 0xFFFD []).top + 3 := by
  decide
theorem test_meets_CallOverflowKeepsPushes_FFFE :
    selectsPrimitive .cb 8 = false ∧ (toppedAt 0xFFFE []).HeapPinned ∧ (toppedAt 0xFFFE []).calcAddress .cb 8 < (toppedAt 0xFFFE []).reg .ct ∧
    (15 : BitVec 8) = (regNumber .cp).setWidth 8 ∧ 65535 < (toppedAt 0xFFFE []).top + 3 := by
  decide
theorem test_meets_CallOverflowKeepsPushes_FFFF :
    selectsPrimitive .cb 8 = false ∧ (toppedAt 0xFFFF []).HeapPinned ∧ (toppedAt 0xFFFF []).calcAddress .cb 8 < (toppedAt 0xFFFF []).reg .ct ∧
    (15 : BitVec 8) = (regNumber .cp).setWidth 8 ∧ 65535 < (toppedAt 0xFFFF []).top + 3 := by
  decide
theorem test_meets_CallFaultsBeforePushing :
    selectsPrimitive .cb 9 = false ∧ (toppedAt 0xFFFF []).reg .ct ≤ (toppedAt 0xFFFF []).calcAddress .cb 9 ∧
    (toppedAt 0xFFFF []).calcAddress .cb 8 < (toppedAt 0xFFFF []).reg .ct ∧ 16 ≤ (16 : BitVec 8).toNat ∧ (15 : BitVec 8).toNat < 16 ∧
    (toppedAt 0xFFFF []).reg .ht ≤ (toppedAt 0xFFFF []).reg .st := by
  decide
theorem test_meets_CallDispatchesPrimitive :
    primMap 1 = some .primId ∧ primMap 28 = some .primReserved28 ∧ ∃ t, exec .primId State.reset = .next t := ⟨rfl, rfl, _, rfl⟩
theorem test_meets_ReturnUnwindsFrame :
    ((toppedAt 5 [7, 0, 0, 2, 8]).setReg .lb 1).HeapPinned ∧ 0 ≤ (1 : Word).toInt ∧
    (1 : BitVec 8).toNat ≤ ((toppedAt 5 [7, 0, 0, 2, 8]).setReg .lb 1).top ∧ (1 : Word).toNat ≤ (((toppedAt 5 [7, 0, 0, 2, 8]).setReg .lb 1).reg .lb).toNat ∧
    (((toppedAt 5 [7, 0, 0, 2, 8]).setReg .lb 1).reg .lb).toNat - (1 : Word).toNat + (1 : BitVec 8).toNat ≤ 65535 := by
  decide

/-- A call with one argument and, in the routine, one result on the stack. -/
theorem test_meets_CallThenReturnRestores :
    ∃ t u, exec (.call .cb 4 4) (toppedAt 1 [7]) = .next t ∧ exec (.loadl 5) t = .next u ∧ selectsPrimitive .cb 4 = false ∧ (toppedAt 1 [7]).HeapPinned ∧
      (toppedAt 1 [7]).status = .running ∧ t.status = .running ∧ u.HeapPinned ∧ u.reg .lb = t.reg .lb ∧
      u.dataAt (t.reg .lb + 1) = t.dataAt (t.reg .lb + 1) ∧ u.dataAt (t.reg .lb + 2) = t.dataAt (t.reg .lb + 2) ∧
      u.top = t.top + (1 : BitVec 8).toNat ∧ 0 ≤ (1 : Word).toInt ∧ (1 : Word).toNat ≤ (toppedAt 1 [7]).top :=
  ⟨_, _, rfl, rfl, by decide⟩

theorem test_meets_JumpSetsCheckedTarget :
    (toppedAt 0 []).reg .cb + 8 < (toppedAt 0 []).reg .ct ∧ (toppedAt 0 []).reg .ct ≤ (toppedAt 0 []).reg .cb + 9 := by
  decide
theorem test_meets_JumpiPopsTarget :
    (toppedAt 0 []).reg .st = 0 ∧ (toppedAt 1 [8]).reg .st ≠ 0 ∧ (toppedAt 1 [8]).below 0 < (toppedAt 1 [8]).reg .ct ∧
    (toppedAt 1 [9]).reg .st ≠ 0 ∧ (toppedAt 1 [9]).reg .ct ≤ (toppedAt 1 [9]).below 0 := by
  decide
theorem test_meets_JumpifTestsPoppedWord :
    (toppedAt 1 [0xFFFF]).reg .st ≠ 0 ∧ ((toppedAt 1 [0xFFFF]).below 0).toInt ≠ (255 : BitVec 8).toNat ∧
    ((toppedAt 1 [255]).below 0).toInt = (255 : BitVec 8).toNat ∧ (toppedAt 1 [255]).calcAddress .cb 8 < (toppedAt 1 [255]).reg .ct ∧
    (toppedAt 1 [255]).reg .ct ≤ (toppedAt 1 [255]).calcAddress .cb 9 := by
  decide
theorem test_meets_UnaryRoutinesReplaceTop :
    (toppedAt 1 [5]).HeapPinned ∧ (toppedAt 1 [5]).reg .st ≠ 0 := by
  decide
theorem test_meets_ArithmeticRoutinesReplaceTopTwo :
    (toppedAt 2 [5, 3]).HeapPinned ∧ 2 ≤ (toppedAt 2 [5, 3]).top := by
  decide
theorem test_meets_OrderRoutinesCompareSigned :
    (toppedAt 2 [5, 3]).HeapPinned ∧ 2 ≤ (toppedAt 2 [5, 3]).top := by
  decide
theorem test_meets_GeAndGtShareOneComparison :
    (toppedAt 2 [5, 3]).HeapPinned ∧ 2 ≤ (toppedAt 2 [5, 3]).top := by
  decide
theorem test_meets_DivisionTruncatesTowardZero :
    (toppedAt 2 [0x8000, 0xFFFF]).HeapPinned ∧ 2 ≤ (toppedAt 2 [0x8000, 0xFFFF]).top ∧ (toppedAt 2 [0x8000, 0xFFFF]).below 0 ≠ 0 := by
  decide
theorem test_meets_ReservedEncodingsFault :
    Instr.reserved6 ∈ [Instr.reserved6, .reserved7, .primReserved27, .primReserved28] := by
  decide
theorem test_meets_EolAndEofPeek :
    (toppedAt 0xFFFE []).reg .st < (toppedAt 0xFFFE []).reg .ht ∧ (toppedAt 0xFFFF []).reg .ht ≤ (toppedAt 0xFFFF []).reg .st := by
  decide
theorem test_meets_PutAndPuteolWrite :
    (toppedAt 1 [65]).reg .st ≠ 0 := by
  decide
theorem test_meets_GetintStoresParsedInteger :
    (toppedAt 2 [0, 0]).reg .st ≠ 0 ∧ (toppedAt 2 [0, 0]).below 0 < (toppedAt 2 [0, 0]).reg .st - 1 := by
  decide
theorem test_meets_PutintWritesDecimal :
    (toppedAt 1 [0x8000]).reg .st ≠ 0 := by
  decide
theorem test_meets_BlockCompareRoutines_equal :
    (toppedAt 3 [5, 5, 1]).HeapPinned ∧ 0 ≤ ((toppedAt 3 [5, 5, 1]).below 0).toInt ∧ ((toppedAt 3 [5, 5, 1]).below 0).toNat = 1 ∧
    1 + 2 * 1 ≤ (toppedAt 3 [5, 5, 1]).top ∧ ∀ j < 1, (toppedAt 3 [5, 5, 1]).below (1 + j) = (toppedAt 3 [5, 5, 1]).below (1 + 1 + j) := by
  decide
theorem test_meets_BlockCompareRoutines_differ :
    (toppedAt 3 [5, 6, 1]).HeapPinned ∧ ((toppedAt 3 [5, 6, 1]).below 0).toNat = 1 ∧ 1 + 2 * 1 ≤ (toppedAt 3 [5, 6, 1]).top ∧
    ¬ ∀ j < 1, (toppedAt 3 [5, 6, 1]).below (1 + j) = (toppedAt 3 [5, 6, 1]).below (1 + 1 + j) := by
  decide
theorem test_meets_RoutineFaults :
    (toppedAt 0 []).reg .st = 0 ∧ (toppedAt 1 [4]).top < 2 ∧ 2 ≤ (toppedAt 2 [5, 0]).top ∧ (toppedAt 2 [5, 0]).below 0 = 0 := by
  decide
theorem test_meets_BlockCompareFaults :
    ((toppedAt 2 [9, 0xFFFF]).below 0).toInt < 0 ∧ 0 ≤ ((toppedAt 2 [5, 1]).below 0).toInt ∧
    (toppedAt 2 [5, 1]).top < 1 + 2 * ((toppedAt 2 [5, 1]).below 0).toNat := by
  decide
theorem test_meets_GetStoresInputByte :
    ((toppedAt 2 [0, 0]).setInput [0x41]).reg .st ≠ 0 ∧ ((toppedAt 2 [0, 0]).setInput [0x41]).below 0 < ((toppedAt 2 [0, 0]).setInput [0x41]).reg .st - 1 ∧
    ((toppedAt 2 [0, 0]).setInput [0x41]).input = 0x41 :: [] := by
  decide
theorem test_meets_GeteolSkipsLine :
    (State.reset.setInput [0x31, 0x0A, 0x61]).input = [0x31] ++ 0x0A :: [0x61] ∧ (0x0A : Byte) ∉ ([0x31] : List Byte) := by
  decide
theorem test_meets_StreamFaults :
    (toppedAt 2 [0, 1]).reg .st - 1 ≤ (toppedAt 2 [0, 1]).below 0 ∧ (toppedAt 2 [0, 1]).below 0 ≤ (toppedAt 2 [0, 1]).reg .ht ∧
    (toppedAt 2 [0, 0]).below 0 < (toppedAt 2 [0, 0]).reg .st - 1 ∧ (toppedAt 2 [0, 0]).input = [] ∧ (0x0A : Byte) ∉ ([0x31] : List Byte) := by
  decide
theorem test_meets_StepKeepsInvariant :
    (machine [0xF0000000] []).Inv ∧ ∃ t, step (machine [0xF0000000] []) = .next t := ⟨by decide, _, rfl⟩
theorem test_meets_ResetMeetsInvariant :
    ∃ t, load [0xF0, 0, 0, 0] [0x41] State.reset = .ok () t := ⟨_, rfl⟩
theorem test_meets_ConstantRegistersAndCode :
    ∃ t, step (machine [0xF0000000] []) = .next t := ⟨_, rfl⟩
theorem test_meets_RegisterFrame :
    (Instr.store .sb 2 0).wf = true ∧ ∃ t, exec (.store .sb 2 0) (toppedAt 4 []) = .next t ∧ t.status = .running := ⟨by decide, _, rfl, rfl⟩
theorem test_meets_DataFrame :
    (Instr.store .sb 2 0).wf = true ∧ ∃ t, exec (.store .sb 2 0) (toppedAt 4 []) = .next t ∧ t.status = .running := ⟨by decide, _, rfl, rfl⟩
theorem test_meets_StreamFrame :
    Instr.primPut.wf = true ∧ ∃ t, exec .primPut (toppedAt 1 [65]) = .next t ∧ t.status = .running := ⟨by decide, _, rfl, rfl⟩
theorem test_meets_CodePointerSummary :
    Instr.jumpi.wf = true ∧ (toppedAt 1 [9]).status = .running ∧ (∃ t, exec .jumpi (toppedAt 1 [9]) = .next t ∧ t.status = .faulted) ∧
    ∃ t, exec .jumpi (toppedAt 1 [8]) = .next t ∧ t.status = .running := ⟨by decide, by decide, ⟨_, rfl, rfl⟩, _, rfl, rfl⟩

end Sys2Proof.Tests
end

/-! Settled here: the load and store statements (41_load_store.md). -/

namespace Sys2Proof.Machine

variable {s : State}

theorem exec_loadl (d : Word) : exec (.loadl d) s = conclude (pushData d) s := rfl

/-- An instruction that only pushes delivers its word on the stack it finds. -/
theorem conclude_pushData_delivers (w : Word) (h : s.reg .st < s.reg .ht) :
    ∃ t, conclude (pushData w) s = .next t ∧ Delivers s t 0 w := by
  have hroom : s.reg .st - BitVec.ofNat 16 0 < s.reg .ht := by simpa using h
  obtain ⟨t, hpush, hdelivers⟩ := pushData_delivers w hroom
  have hnopops : s.setReg .st (s.reg .st - BitVec.ofNat 16 0) = s := by simp
  rw [hnopops] at hpush
  exact ⟨t, conclude_ok hpush, hdelivers⟩

/-- An instruction that only pushes takes stack-overflow, and no other effect, when the stack is full. -/
theorem conclude_pushData_full (w : Word) (h : s.reg .ht ≤ s.reg .st) :
    conclude (pushData w) s = .next (s.faulted .stackOverflow) :=
  conclude_error (pushData_full w h)

/-- Settles O19: LOADL is one push of `D`, which either delivers the word or finds the stack full. -/
theorem loadlPushesLiteral : Obligations.LoadlPushesLiteral := by
  intro s d
  rw [exec_loadl]
  exact ⟨conclude_pushData_delivers d, conclude_pushData_full d⟩

end Sys2Proof.Machine

/-! Settled here: the control transfer statements (43_control_transfer.md). -/

namespace Sys2Proof.Machine

variable {s : State}

theorem exec_jump (r : Reg) (d : Word) : exec (.jump r d) s = conclude (jumpTo (s.reg r + d)) s := rfl

/-- Settles O34: JUMP is one checked jump to `x[R] + D`, which either sets CP or raises before it changes anything. -/
theorem jumpSetsCheckedTarget : Obligations.JumpSetsCheckedTarget := by
  intro s r d
  rw [exec_jump]
  constructor
  · intro hinside
    exact conclude_ok (jumpTo_inside hinside)
  · intro hbeyond
    exact conclude_error (jumpTo_beyond hbeyond)

end Sys2Proof.Machine

/-! Settled here: the statement on the primitive `id` (44_primitives_alu.md). -/

namespace Sys2Proof.Machine

/-- The routine `id` is an instruction with no sub-steps. -/
theorem exec_primId (s : State) : exec .primId s = conclude (pure ()) s := rfl

/-- An instruction with no sub-steps leaves the state as it finds it. -/
theorem conclude_pure (s : State) : conclude (pure ()) s = .next s :=
  conclude_ok (M.pure_apply s ())

/-- Settles O37: `id` has no sub-steps, so nothing can raise and nothing is written. -/
theorem idRoutineChangesNothing : Obligations.IdRoutineChangesNothing := by
  intro s
  rw [exec_primId, conclude_pure]

end Sys2Proof.Machine

/-! Settled here: the statements on decoding and encoding (30_encoding.md). -/

namespace Sys2Proof

/-! ## Decoding, by the fields -/

/-- A `CALL` word whose fields select a primitive decodes to the routine `D` names. -/
theorem decodeCall_primitive {r : Reg} {d : Word} (n : BitVec 8) (h : selectsPrimitive r d = true) :
    primMap d.toNat = some (decodeCall r n d) ∧ rowOf (decodeCall r n d) = .prim d.toNat := by
  obtain ⟨rfl, hd⟩ := (selectsPrimitive_iff r d).mp h
  obtain ⟨i, hi, hrow⟩ := primMap_some hd
  simpa [decodeCall, hi] using hrow

/-- A `CALL` word whose fields select none is a frame-path `CALL`. -/
theorem decodeCall_frame {r : Reg} {d : Word} (n : BitVec 8) (h : selectsPrimitive r d = false) : decodeCall r n d = .call r n d := by
  unfold decodeCall
  split
  · rename_i hr
    rw [primMap_none fun hd => by simp [(selectsPrimitive_iff r d).mpr ⟨hr, hd⟩] at h, Option.getD_none]
  · rfl

/-- The code word selects a primitive: it is a `CALL` whose `R` and `D` pass the test of 30_encoding.md R57. -/
def NamesPrimitive (w : CodeWord) : Prop :=
  opMap (opField w) = .call ∧ selectsPrimitive (regMap (rField w)) (dField w) = true

theorem decode_of_call {w : CodeWord} (h : opMap (opField w) = .call) :
    decode w = decodeCall (regMap (rField w)) (nField w) (dField w) := by simp [decode, h]

theorem rowOf_decode_primitive {w : CodeWord} (h : NamesPrimitive w) : rowOf (decode w) = .prim (dField w).toNat := by
  rw [decode_of_call h.1]
  exact (decodeCall_primitive _ h.2).2

theorem rowOf_decode_opcode {w : CodeWord} (h : ¬ NamesPrimitive w) : rowOf (decode w) = .op (opMap (opField w)) := by
  cases ho : opMap (opField w) with
  | call =>
    have hs : selectsPrimitive (regMap (rField w)) (dField w) = false := by simpa [NamesPrimitive, ho] using h
    rw [decode_of_call ho, decodeCall_frame _ hs]
    rfl
  | _ => simp [decode, ho, rowOf]

/-- Only a frame-path `CALL` can be ill-formed, so an instruction with the row of a primitive is well-formed. -/
theorem wf_of_rowOf_prim {i : Instr} {k : Nat} (h : rowOf i = .prim k) : i.wf = true := by
  cases i with
  | call => cases h
  | _ => rfl

/-- What the decoder makes is well-formed. -/
theorem decode_wf (w : CodeWord) : (decode w).wf = true := by
  by_cases h : NamesPrimitive w
  · exact wf_of_rowOf_prim (rowOf_decode_primitive h)
  cases ho : opMap (opField w) with
  | call =>
    have hs : selectsPrimitive (regMap (rField w)) (dField w) = false := by simpa [NamesPrimitive, ho] using h
    simp [decode_of_call ho, decodeCall_frame _ hs, Instr.wf, hs]
  | _ => simp [decode, ho, Instr.wf]

/-- The canonical word of a primitive decodes to the routine its identifier names. -/
theorem decode_primWord {d : Word} (h : 1 ≤ d.toInt ∧ d.toInt ≤ 28) : some (decode (primWord d)) = primMap d.toNat := by
  have hs : selectsPrimitive .pb d = true := (selectsPrimitive_iff _ _).mpr ⟨rfl, h⟩
  rw [decode_of_call (by simp [primWord])]
  simpa [primWord] using (decodeCall_primitive 0 hs).1.symm

/-- Settles O2: the opcode rows read back the packed fields, the frame-path `CALL` because it selects no primitive; the primitive rows
have fixed words. -/
theorem encodedInstructionDecodesToItself : Obligations.EncodedInstructionDecodesToItself := by
  intro i hwf
  cases i with
  | load | loada | loadi | loadl | store | storei | ret | push | pop | jump | jumpif => simp [encode, decode]
  | reserved6 | reserved7 | jumpi | halt => simp [encode, decode]
  | call r n d =>
    have hs : selectsPrimitive r d = false := by simpa [Instr.wf] using hwf
    simp [encode, decode, decodeCall_frame n hs]
  | _ => exact Option.some_inj.mp (decode_primWord (by decide))

/-- Settles O1: fourteen fixed words. -/
theorem decodeReadsSpecWords : Obligations.DecodeReadsSpecWords := by
  unfold Obligations.DecodeReadsSpecWords
  decide

/-- On the primitive path a `CALL` word drops `N`. -/
theorem decodeCall_congr {r : Reg} {d : Word} {n m : BitVec 8} (h : selectsPrimitive r d = true ∨ n = m) :
    decodeCall r n d = decodeCall r m d := by
  obtain h | rfl := h
  · exact Option.some_inj.mp ((decodeCall_primitive n h).1.symm.trans (decodeCall_primitive m h).1)
  · rfl

/-- Settles O3: per opcode, the decoder uses only the fields the statement lists. -/
theorem decodeIgnoresUnreadFields : Obligations.DecodeIgnoresUnreadFields := by
  intro w v hop h
  have key : decode w = decode v := by
    cases ho : opMap (opField w) with
    | call =>
      simp only [ho] at h
      obtain ⟨hr, hd, hn⟩ := h
      rw [decode_of_call ho, decode_of_call (hop ▸ ho), decodeCall_congr hn, hr, hd]
    | _ =>
      simp only [ho] at h
      simp [decode, ← hop, ho, h]
  exact ⟨key, fun s => by rw [key]⟩

theorem namesPrimitive_iff (w : CodeWord) :
    NamesPrimitive w ↔ opMap (opField w) = .call ∧ regMap (rField w) = .pb ∧ 1 ≤ (dField w).toInt ∧ (dField w).toInt ≤ 28 := by
  rw [NamesPrimitive, selectsPrimitive_iff]

theorem rowOf_decode_prim_iff {w : CodeWord} {k : Nat} : rowOf (decode w) = .prim k ↔ NamesPrimitive w ∧ (dField w).toNat = k := by
  by_cases h : NamesPrimitive w
  · simp [rowOf_decode_primitive h, h]
  · simp [rowOf_decode_opcode h, h]

/-- Settles O4: the row of a decoded word is a primitive's exactly when its fields select one, and the identifier is then `D`. -/
theorem primitivesSelectedByFields : Obligations.PrimitivesSelectedByFields := by
  refine ⟨fun w => ?_, fun w k hrow => (rowOf_decode_prim_iff.mp hrow).2.symm, fun n k h1 h28 => ?_⟩
  · rw [← namesPrimitive_iff]
    simp [rowOf_decode_prim_iff]
  · have hword : (0x82 : Byte) ++ n ++ BitVec.ofNat 16 k = packWord (opNumber .call) (regNumber .pb) n (BitVec.ofNat 16 k) := by
      rw [show (0x82 : Byte) = opNumber .call ++ regNumber .pb by decide]
      rfl
    have hk : (BitVec.ofNat 16 k).toNat = k := by rw [BitVec.toNat_ofNat]; omega
    have hint : (BitVec.ofNat 16 k).toInt = k := by rw [BitVec.toInt_eq_toNat_of_lt (by omega), hk]
    rw [hword, rowOf_decode_prim_iff, namesPrimitive_iff]
    simp only [opField_packWord, opMap_opNumber, rField_packWord, regMap_regNumber, dField_packWord, hint, hk, true_and, and_true]
    omega

/-! ## The opcode table -/

/-- The row of an opcode value (30_encoding.md R63). -/
def opcodeRow (o : OpName) : OpRow := ⟨.op o, packWord (opNumber o) 0 0 0, 0xF0000000, 1⟩

/-- The row of a primitive identifier (30_encoding.md R63). -/
def primitiveRow (d : Word) : OpRow := ⟨.prim d.toNat, primWord d, 0xFF00FFFF, 2⟩

theorem opcodeRow_mem (o : OpName) : opcodeRow o ∈ opcodeRows := by cases o <;> decide

theorem primitiveRow_mem {d : Word} (h : 1 ≤ d.toInt ∧ d.toInt ≤ 28) : primitiveRow d ∈ primitiveRows := by
  have hd : ∃ k : Fin 28, d = BitVec.ofNat 16 (k + 1) := by
    have := d.isLt
    rw [BitVec.toInt_eq_toNat_cond] at h
    refine ⟨⟨d.toNat - 1, by split at h <;> omega⟩, BitVec.eq_of_toNat_eq ?_⟩
    rw [BitVec.toNat_ofNat]
    split at h <;> simp only <;> omega
  obtain ⟨k, rfl⟩ := hd
  revert k
  decide

theorem opcodeRows_cases : ∀ row ∈ opcodeRows, row = opcodeRow (opMap (opField row.pattern)) := by decide

theorem primitiveRows_cases : ∀ row ∈ primitiveRows, row = primitiveRow (dField row.pattern) ∧
    1 ≤ (dField row.pattern).toInt ∧ (dField row.pattern).toInt ≤ 28 := by decide

@[simp] theorem opNumber_opMap (k : BitVec 4) : opNumber (opMap k) = k := by revert k; decide

theorem rowMatches_opcodeRow {o : OpName} {w : CodeWord} : rowMatches (opcodeRow o) w = true ↔ opMap (opField w) = o := by
  rw [rowMatches, beq_iff_eq, opcodeRow]
  constructor
  · intro h
    have hop := congrArg opField h
    rw [← packWord_fields w, Laws.RowOfWord.packWord_and_op] at hop
    simpa using congrArg opMap hop
  · rintro rfl
    conv_lhs => rw [← packWord_fields w, Laws.RowOfWord.packWord_and_op]
    simp

/-- The mask of a primitive row leaves `N` open. -/
theorem packWord_and_primitive (op r : BitVec 4) (n : BitVec 8) (d : Word) :
    packWord op r n d &&& 0xFF00FFFF = packWord op r 0 d := by
  rw [show (0xFF00FFFF : CodeWord) = packWord 15 15 0 0xFFFF by decide, packWord_and]
  congr 1
  · exact BitVec.and_allOnes
  · exact BitVec.and_allOnes
  · exact BitVec.and_zero
  · exact BitVec.and_allOnes

theorem rowMatches_primitiveRow {d : Word} {w : CodeWord} :
    rowMatches (primitiveRow d) w = true ↔ opMap (opField w) = .call ∧ regMap (rField w) = .pb ∧ dField w = d := by
  rw [rowMatches, beq_iff_eq, primitiveRow]
  constructor
  · intro h
    rw [← packWord_fields w, packWord_and_primitive] at h
    have hop := congrArg (fun v => opMap (opField v)) h
    have hr := congrArg (fun v => regMap (rField v)) h
    have hd := congrArg dField h
    simp only [primWord, opField_packWord, rField_packWord, dField_packWord, opMap_opNumber, regMap_regNumber] at hop hr hd
    exact ⟨hop, hr, hd⟩
  · rintro ⟨hop, hr, rfl⟩
    conv_lhs => rw [← packWord_fields w, packWord_and_primitive]
    rw [primWord, ← hop, ← hr, opNumber_opMap, regNumber_regMap]

/-- Settles O5: the row is the primitive's where the fields select one, and the opcode's where they do not. Another opcode row that
matches has the lower priority or is the same, and another primitive row has the same `D`, which selects. -/
theorem opcodeTableIsTotal : Obligations.OpcodeTableIsTotal := by
  intro w
  refine ⟨decode_wf w, ?_⟩
  by_cases h : NamesPrimitive w
  · have hd := ((namesPrimitive_iff w).mp h).2.2
    obtain ⟨hop, hr, -⟩ := (namesPrimitive_iff w).mp h
    refine ⟨primitiveRow (dField w), List.mem_append_right _ (primitiveRow_mem hd), (rowOf_decode_primitive h).symm,
      rowMatches_primitiveRow.mpr ⟨hop, hr, rfl⟩, fun other hmem hmatch => ?_⟩
    obtain hmem | hmem := List.mem_append.mp hmem
    · right
      rw [opcodeRows_cases other hmem]
      exact Nat.one_lt_two
    · left
      rw [(primitiveRows_cases other hmem).1] at hmatch ⊢
      rw [(rowMatches_primitiveRow.mp hmatch).2.2]
  · refine ⟨opcodeRow (opMap (opField w)), List.mem_append_left _ (opcodeRow_mem _), (rowOf_decode_opcode h).symm,
      rowMatches_opcodeRow.mpr rfl, fun other hmem hmatch => ?_⟩
    obtain hmem | hmem := List.mem_append.mp hmem
    · left
      rw [opcodeRows_cases other hmem] at hmatch ⊢
      rw [rowMatches_opcodeRow.mp hmatch]
    · obtain ⟨hrow, hident⟩ := primitiveRows_cases other hmem
      rw [hrow] at hmatch
      obtain ⟨hop, hr, hd⟩ := rowMatches_primitiveRow.mp hmatch
      exact absurd ((namesPrimitive_iff w).mpr ⟨hop, hr, hd ▸ hident⟩) h

end Sys2Proof

/-! Settled here: the statements on the load and the reset state (70_reset_and_hazards.md). -/

namespace Sys2Proof.Machine

/-- The word at `k` of an image, as an unsigned number: big-endian (20_memory.md R31), 0 beyond the image. -/
def imageWordAt (image : List Byte) (k : Nat) : Nat :=
  (image.getD (4 * k) 0).toNat * 2 ^ 24 + (image.getD (4 * k + 1) 0).toNat * 2 ^ 16 +
    (image.getD (4 * k + 2) 0).toNat * 2 ^ 8 + (image.getD (4 * k + 3) 0).toNat

theorem toNat_assemble (b0 b1 b2 b3 : Byte) :
    (assemble b0 b1 b2 b3).toNat = b0.toNat * 2 ^ 24 + b1.toNat * 2 ^ 16 + b2.toNat * 2 ^ 8 + b3.toNat := by
  simp only [assemble, BitVec.toNat_append]
  rw [← Nat.shiftLeft_add_eq_or_of_lt b1.isLt, ← Nat.shiftLeft_add_eq_or_of_lt b2.isLt, ← Nat.shiftLeft_add_eq_or_of_lt b3.isLt]
  simp only [Nat.shiftLeft_eq]
  ring

/-- An image of whole words is read as those words. -/
theorem imageWords_some {l : Nat} {image : List Byte} (h : image.length = 4 * l) :
    ∃ ws, imageWords image = some ws ∧ ws.length = l ∧ ∀ k, (ws.getD k 0).toNat = imageWordAt image k := by
  induction l generalizing image with
  | zero =>
    obtain rfl := List.eq_nil_of_length_eq_zero h
    exact ⟨[], rfl, rfl, fun k => by simp [imageWordAt]⟩
  | succ l ih =>
    obtain ⟨b0, b1, b2, b3, rest, rfl⟩ : ∃ b0 b1 b2 b3 rest, image = b0 :: b1 :: b2 :: b3 :: rest := by
      match image, h with
      | b0 :: b1 :: b2 :: b3 :: rest, _ => exact ⟨b0, b1, b2, b3, rest, rfl⟩
    obtain ⟨ws, hws, hlen, hword⟩ := ih (image := rest) (by simp only [List.length_cons] at h; omega)
    refine ⟨assemble b0 b1 b2 b3 :: ws, by rw [imageWords, hws]; rfl, by rw [List.length_cons, hlen], fun k => ?_⟩
    cases k with
    | zero => exact toNat_assemble b0 b1 b2 b3
    | succ k => exact hword k

/-- An image that ends inside a word is not read. -/
theorem imageWords_none : ∀ {image : List Byte}, image.length % 4 ≠ 0 → imageWords image = none
  | [], h => absurd rfl h
  | [_], _ | [_, _], _ | [_, _, _], _ => rfl
  | b0 :: b1 :: b2 :: b3 :: rest, h => by
    have hrest : rest.length % 4 ≠ 0 := by simp only [List.length_cons] at h; omega
    rw [imageWords, imageWords_none hrest]
    rfl

theorem load_of_words {image input : List Byte} {ws : List CodeWord} (s : State) (hws : imageWords image = some ws)
    (h : ws.length ≤ 65535) : load image input s = .ok () (s.loaded ws input) := by
  simp [load, hws, Nat.not_lt.mpr h]

/-- A load that succeeds leaves the code words of the image, at most 65535 of them. -/
theorem load_ok {image input : List Byte} {s t : State} (h : load image input s = .ok () t) :
    ∃ ws, ws.length ≤ 65535 ∧ t = s.loaded ws input := by
  cases hws : imageWords image with
  | none => simp [load, hws] at h
  | some ws =>
    by_cases hlen : ws.length ≤ 65535
    · rw [load_of_words s hws hlen] at h
      cases h
      exact ⟨ws, hlen, rfl⟩
    · simp [load, hws, Nat.lt_of_not_le hlen] at h

/-- Settles O9: the image is whole words, the load keeps them all, and every line of R200 is read off the state it leaves. -/
theorem loadEstablishesResetState : Obligations.LoadEstablishesResetState := by
  intro s image input l himage hl
  obtain ⟨ws, hws, hlen, hword⟩ := imageWords_some himage
  have hct : (BitVec.ofNat 16 ws.length).toNat = l := by rw [BitVec.toNat_ofNat]; omega
  refine ⟨_, load_of_words s hws (by omega), fun a => ?_, fun a => rfl, hct, rfl, ?_, rfl, rfl, fun r hr => ?_, rfl, rfl, rfl, rfl⟩
  · rw [State.codeAt_loaded]
    split
    · exact hword a.toNat
    · rw [List.getD_eq_default _ _ (by omega)]
      rfl
  · change (BitVec.ofNat 16 ws.length + 29).toNat = _
    rw [BitVec.toNat_add, hct]
    rfl
  · cases r with
    | ct | pb | pt | hb | ht => simp at hr
    | _ => rfl

/-- Settles O10: an image that ends inside a word gives no words, and one of whole words gives too many. -/
theorem refusedLoadChangesNothing : Obligations.RefusedLoadChangesNothing := by
  intro s image input h
  by_cases hmod : image.length % 4 = 0
  · obtain ⟨ws, hws, hlen, -⟩ := imageWords_some (l := image.length / 4) (image := image) (by omega)
    have hlong : 65535 < ws.length := by omega
    simp [load, hws, hlong]
  · simp [load, imageWords_none hmod]

/-- Settles O11: each clause is about one fixed state. -/
theorem resetStateValues : Obligations.ResetStateValues :=
  ⟨rfl, rfl, rfl, rfl, rfl, fun r => by cases r <;> rfl, fun _ => ⟨rfl, rfl⟩, rfl⟩

theorem loaded_inv (s : State) {ws : List CodeWord} (input : List Byte) (h : ws.length ≤ 65535) : (s.loaded ws input).Inv :=
  ⟨⟨rfl, rfl, rfl, rfl, rfl, rfl, rfl, rfl, rfl, rfl, rfl, rfl⟩, fun _ => rfl, s.wf_loaded input ws h⟩

/-- Settles O54: the reset state is the load of the empty image, and every load leaves the invariant. -/
theorem resetMeetsInvariant : Obligations.ResetMeetsInvariant := by
  refine ⟨loaded_inv State.unloaded (ws := []) [] (by decide), fun s t image input h => ?_⟩
  obtain ⟨ws, hlen, rfl⟩ := load_ok h
  exact loaded_inv s input hlen

end Sys2Proof.Machine

/-! Settled here: the statements on the end of a run, the fetch and taking a fault (40_fetch_and_stack_primitives.md section 1,
43_control_transfer.md sections 5 and 6, 60_exceptions.md). -/

namespace Sys2Proof.Machine

theorem step_of_halted {s : State} (h : s.status = .halted) : step s = .fault .runHalted := by simp [step, h]
theorem step_of_faulted {s : State} (h : s.status = .faulted) : step s = .fault .runFaulted := by simp [step, h]

/-- Settles O8: `step` is enabled only while STATUS is Running, and a load makes it so. -/
theorem endedRunTakesNoStep : Obligations.EndedRunTakesNoStep := by
  refine ⟨fun s => step_of_halted, fun s => step_of_faulted, ?_, ?_⟩
  · rintro s (h | h) t hstep
    · rw [step_of_halted h] at hstep
      cases hstep
    · rw [step_of_faulted h] at hstep
      cases hstep
  · intro s t image input _ h
    obtain ⟨ws, -, rfl⟩ := load_ok h
    exact ⟨rfl, rfl⟩

theorem step_inside {s : State} (hr : s.status = .running) (hc : s.reg .cp < s.reg .ct) :
    step s = exec (decode (s.codeAt (s.reg .cp))) (s.setReg .cp (s.reg .cp + 1)) := by
  simp [step, hr, fetch_inside hc]

/-- Settles O6: the fetch succeeds below `CT`. -/
theorem stepRunsDecodedInstruction : Obligations.StepRunsDecodedInstruction := fun _ => step_inside

/-- Settles O7: the fetch raises at or beyond `CT`, before it writes anything. -/
theorem fetchAtCodeTopFaults : Obligations.FetchAtCodeTopFaults := by
  intro s hr hc
  refine ⟨s.takeFault .codeAccessViolation (s.reg .cp), ?_, rfl, rfl, rfl, rfl, rfl, rfl, rfl, rfl⟩
  simp [step, hr, fetch_beyond hc]

/-- Settles O12: taking a fault writes the report and nothing else. -/
theorem faultEntry : Obligations.FaultEntry := fun _ _ _ _ h =>
  ⟨_, conclude_error h, rfl, rfl, rfl, rfl, rfl, rfl, rfl, rfl⟩

/-- Settles O15: `HALT` changes STATUS alone, and its step the `CP` of the fetch besides. -/
theorem haltStopsRun : Obligations.HaltStopsRun := by
  intro s
  refine ⟨⟨s.halt, exec_halt s, rfl, rfl, rfl, rfl, rfl, rfl, rfl, rfl⟩, fun hr hc hd => ?_⟩
  refine ⟨(s.setReg .cp (s.reg .cp + 1)).halt, by rw [step_inside hr hc, hd, exec_halt], rfl, by simp, fun r hne => by simp [hne],
    rfl, rfl, rfl, rfl, ⟨rfl, rfl⟩, fun u hu => ?_⟩
  rw [step_of_halted rfl] at hu
  cases hu

/-- An instruction that only raises takes that fault where it stands. -/
theorem conclude_raise (k : ErrKind) (s : State) : conclude (raise k) s = .next (s.faulted k) := conclude_error rfl

/-- Settles O33: each of the four reserved rows is one raise. -/
theorem reservedEncodingsFault : Obligations.ReservedEncodingsFault := by
  intro s i hi
  refine ⟨s.faulted .illegalInstruction, ?_, rfl, rfl, rfl, rfl, rfl, rfl, rfl, rfl⟩
  have hexec : exec i s = conclude (raise .illegalInstruction) s := by
    simp only [List.mem_cons, List.not_mem_nil, or_false] at hi
    obtain rfl | rfl | rfl | rfl := hi <;> rfl
  rw [hexec, conclude_raise]

/-- Settles O14: an instruction other than `HALT` either faults or leaves STATUS Running, and `HALT` only halts. -/
theorem runEndsWellOnlyAtHalt : Obligations.RunEndsWellOnlyAtHalt := by
  intro s t hstep
  obtain ⟨hr, ⟨hc, rfl⟩ | ⟨hc, hexec⟩⟩ := step_cases hstep
  · simp [State.EndedWell, BitVec.not_lt.mpr hc]
  · by_cases hi : decode (s.codeAt (s.reg .cp)) = .halt
    · rw [hi, exec_halt] at hexec
      cases hexec
      refine ⟨by simp [State.EndedWell, hc, hi], fun _ => ⟨by simp, rfl, rfl, rfl, rfl, rfl⟩, fun hclear _ => hclear (by simp [hr])⟩
    · have hnot : ¬ t.EndedWell := by
        obtain hf | ⟨hsame, -⟩ := exec_report hi hexec
        · simp [State.EndedWell, hf]
        · simp [State.EndedWell, hsame, hr]
      exact ⟨iff_of_false hnot fun h => hi h.2, fun h => absurd h hnot, fun _ h => absurd h hnot⟩

end Sys2Proof.Machine

/-! Settled here: what every step keeps (10_state.md sections 1 and 3, 60_exceptions.md section 5). -/

namespace Sys2Proof.Machine

/-- What only a load writes is as it was: the registers no instruction writes, and the code store. -/
def KeepsLoaded (s t : State) : Prop := (∀ r, r ∉ [Reg.st, .lb, .cp] → t.reg r = s.reg r) ∧ t.code = s.code

theorem keepsLoaded_setReg {r : Reg} (hr : r ∈ [Reg.st, .lb, .cp]) (s : State) (v : Word) : KeepsLoaded s (s.setReg r v) := by
  refine ⟨fun q hq => ?_, rfl⟩
  rw [State.reg_setReg, if_neg]
  rintro rfl
  exact hq hr

theorem keepsLoaded_closed : StepClosed KeepsLoaded where
  refl _ := ⟨fun _ _ => rfl, rfl⟩
  trans _ _ _ h1 h2 := ⟨fun r hr => (h2.1 r hr).trans (h1.1 r hr), h2.2.trans h1.2⟩
  st := keepsLoaded_setReg (by decide)
  lb := keepsLoaded_setReg (by decide)
  cp := keepsLoaded_setReg (by decide)
  data _ _ _ := ⟨fun _ _ => rfl, rfl⟩
  input _ _ := ⟨fun _ _ => rfl, rfl⟩
  output _ _ := ⟨fun _ _ => rfl, rfl⟩
  fault _ _ _ := ⟨fun _ _ => rfl, rfl⟩
  halt _ := ⟨fun _ _ => rfl, rfl⟩

/-- Settles O55: no update an instruction or a fetch makes writes one of these registers or the code store. -/
theorem constantRegistersAndCode : Obligations.ConstantRegistersAndCode := by
  intro s t hstep
  obtain ⟨hregs, hcode⟩ := step_keeps keepsLoaded_closed hstep
  exact ⟨hregs, hcode, fun a => by rw [State.codeAt, hcode, State.codeAt]⟩

/-- The canonical form of the data store is kept. -/
def KeepsDataForm (s t : State) : Prop := Memory.wf s.data = true → Memory.wf t.data = true

theorem keepsDataForm_closed : StepClosed KeepsDataForm where
  refl _ := id
  trans _ _ _ h1 h2 := h2 ∘ h1
  data s a v := s.wf_setData a v
  st _ _ := id
  lb _ _ := id
  cp _ _ := id
  input _ _ := id
  output _ _ := id
  fault _ _ _ := id
  halt _ := id

/-- ERR stays none until a fault: a step either faults, or halts, or leaves the report alone. -/
theorem step_errClear {s t : State} (h : s.ErrClear) (hstep : step s = .next t) : t.ErrClear := by
  obtain ⟨hr, ⟨-, rfl⟩ | ⟨-, hexec⟩⟩ := step_cases hstep
  · exact fun hne => absurd rfl hne
  · have hnone : s.err = .none := h (by simp [hr])
    by_cases hi : decode (s.codeAt (s.reg .cp)) = .halt
    · rw [hi, exec_halt] at hexec
      cases hexec
      exact fun _ => hnone
    · obtain hf | ⟨-, herr, -⟩ := exec_report hi hexec
      · exact fun hne => absurd hf hne
      · exact fun _ => herr.trans hnone

/-- Settles O53: the launch values stand in registers no step writes, and each of the other parts is kept on its own. -/
theorem stepKeepsInvariant : Obligations.StepKeepsInvariant := by
  rintro s t ⟨hlaunched, herr, hcode, hdata⟩ hstep
  obtain ⟨hregs, hsame⟩ := step_keeps keepsLoaded_closed hstep
  refine ⟨?_, step_errClear herr hstep, hsame ▸ hcode, step_keeps keepsDataForm_closed hstep hdata⟩
  simp only [State.Launched, State.HeapPinned] at hlaunched ⊢
  rwa [hregs .cb (by decide), hregs .pb (by decide), hregs .ct (by decide), hregs .pt (by decide), hregs .sb (by decide),
    hregs .hb (by decide), hregs .ht (by decide), hregs .l1 (by decide), hregs .l2 (by decide), hregs .l3 (by decide),
    hregs .l4 (by decide), hregs .l5 (by decide), hregs .l6 (by decide)]

end Sys2Proof.Machine

/-! Said once, for the statements below: frames, blocks copied off the stack, and pops before the rest of an instruction. -/

namespace Sys2Proof.Machine

variable {s t u : State} {regs : List Reg} {touched : Word → Prop}

theorem toNat_ht (h : s.HeapPinned) : (s.reg .ht).toNat = 65535 := by rw [h]; rfl

theorem top_le (s : State) : s.top ≤ 65535 := Nat.le_of_lt_succ (s.reg .st).isLt

/-! ## Frames -/

theorem frame_refl (s : State) : Frame regs touched s s := ⟨fun _ _ => rfl, fun _ _ => rfl, rfl⟩

/-- A frame that lists the register does not tell the states before and after its write apart. -/
theorem frame_after_setReg {r : Reg} {v : Word} (hr : r ∈ regs) (h : Frame regs touched (s.setReg r v) t) : Frame regs touched s t := by
  obtain ⟨hregs, hdata, hcode⟩ := h
  refine ⟨fun q hq => ?_, hdata, hcode⟩
  rw [hregs q hq, State.reg_setReg, if_neg]
  rintro rfl
  exact hq hr

/-- A write to a listed register keeps the frame. -/
theorem frame_then_setReg {r : Reg} (v : Word) (hr : r ∈ regs) (h : Frame regs touched s t) : Frame regs touched s (t.setReg r v) := by
  obtain ⟨hregs, hdata, hcode⟩ := h
  refine ⟨fun q hq => ?_, hdata, hcode⟩
  rw [State.reg_setReg, if_neg, hregs q hq]
  rintro rfl
  exact hq hr

theorem frame_mono {regs' : List Reg} (hsub : regs ⊆ regs') (h : Frame regs touched s t) : Frame regs' touched s t :=
  ⟨fun r hr => h.1 r fun hmem => hr (hsub hmem), h.2⟩

theorem frame_setBlock (s : State) (a : Word) (vs : List Word) : Frame regs (InBlock a vs.length) s (s.setBlock a vs) :=
  ⟨fun _ _ => by simp, fun _ h => State.dataAt_setBlock_outside h, by simp⟩

theorem quiet_setBlock (s : State) (a : Word) (vs : List Word) : Quiet s (s.setBlock a vs) := by simp [Quiet, SameReport, SameStreams]

/-! ## A block copied off the stack -/

/-- `t` is `s` with `ST` at `v` and, from `a` on, the `m` deepest of the `n` words that were on top; nothing else changed. -/
def CopiesTop (s t : State) (v a : Word) (n m : Nat) : Prop :=
  t.reg .st = v ∧ (∀ k < m, t.dataAt (a + BitVec.ofNat 16 k) = s.dataAt (s.reg .st - BitVec.ofNat 16 n + BitVec.ofNat 16 k)) ∧
    Frame [.st] (InBlock a m) s t ∧ Quiet s t

theorem setBlock_copiesTop {n m : Nat} (v a : Word) (hm : m ≤ n) (hn : n ≤ s.top) :
    CopiesTop s ((s.setBlock a ((s.topWords n).reverse.take m)).setReg .st v) v a n m := by
  have hlen : ((s.topWords n).reverse.take m).length = m := by simp [hm]
  have hframe := frame_setBlock (regs := [.st]) s a ((s.topWords n).reverse.take m)
  rw [hlen] at hframe
  have htop := top_le s
  refine ⟨by simp, fun k hk => ?_, frame_then_setReg v (by simp) hframe, quiet_setBlock s a _⟩
  rw [State.dataAt_setReg, State.dataAt_setBlock_inside (by omega) (by omega), List.getElem_take, topWords_reverse_get]

theorem setBlock_copiesTop_all {n : Nat} (v a : Word) (hn : n ≤ s.top) :
    CopiesTop s ((s.setBlock a (s.topWords n).reverse).setReg .st v) v a n n := by
  simpa [List.take_of_length_le] using setBlock_copiesTop v a (le_refl n) hn

theorem toNat_eq_zero_of_eq_zero {n : BitVec 8} (h : n = 0) : n.toNat = 0 := by rw [h]; rfl

theorem toNat_pos_of_ne_zero {n : BitVec 8} (h : n ≠ 0) : 0 < n.toNat :=
  Nat.pos_of_ne_zero fun h0 => h (BitVec.eq_of_toNat_eq h0)

end Sys2Proof.Machine

/-! Settled here: the load and store statements (41_load_store.md). -/

namespace Sys2Proof.Machine

variable {s : State}

/-! ## LOAD, LOADA, LOADI -/

theorem exec_load (r : Reg) (n : BitVec 8) (d : Word) : exec (.load r n d) s = conclude (loadBlock (s.calcAddress r d) n.toNat) s := rfl

theorem exec_loada (r : Reg) (d : Word) : exec (.loada r d) s = conclude (pushData (s.reg r + d)) s := rfl

theorem exec_loadi_empty (n : BitVec 8) (h : s.reg .st = 0) : exec (.loadi n) s = .next (s.faulted .stackUnderflow) :=
  conclude_error (by simp only [M.bind_apply, popData_empty h])

theorem exec_loadi_nonempty (n : BitVec 8) (h : s.reg .st ≠ 0) :
    exec (.loadi n) s = conclude (loadBlock (s.below 0) n.toNat) (s.setReg .st (s.reg .st - 1)) := by
  change conclude _ s = _
  simp only [conclude, M.bind_apply, popData_nonempty h]

/-- Settles O16: the shared block law, with the heap top at 65535. -/
theorem loadPushesBlock : Obligations.LoadPushesBlock := by
  intro s r n d hp ha hroom
  obtain ⟨t, hload, hst, hframe, hquiet, hcopy⟩ :=
    loadBlock_room (n := n.toNat) (a := s.calcAddress r d) (ha.imp_left toNat_eq_zero_of_eq_zero) (by rwa [toNat_ht hp])
  rw [exec_load]
  exact ⟨t, conclude_ok hload, hst, hcopy, hframe, hquiet⟩

/-- Settles O18: LOADA is one push of the address. -/
theorem loadaPushesAddress : Obligations.LoadaPushesAddress := by
  intro s r d
  rw [exec_loada]
  exact ⟨conclude_pushData_delivers _, conclude_pushData_full _⟩

/-- Settles O20: after the pop the shared block law applies, and the frame takes in the pop. -/
theorem loadiPushesBlock : Obligations.LoadiPushesBlock := by
  intro s n hp hne ha hroom
  obtain ⟨t, hload, hst, hframe, hquiet, hcopy⟩ :=
    loadBlock_room (n := n.toNat) (s := s.setReg .st (s.reg .st - 1)) (a := s.below 0)
      (ha.imp toNat_eq_zero_of_eq_zero (by simp)) (by rw [top_setReg_sub_one hne]; exact (toNat_ht hp).symm ▸ hroom)
  rw [exec_loadi_nonempty n hne]
  simp only [State.reg_setReg, if_true] at hst hcopy hframe
  exact ⟨t, conclude_ok hload, hst, hcopy, frame_after_setReg (by simp) hframe, hquiet⟩

/-- A block whose first address is in the free gap is not begun. -/
theorem loadBlock_gap {n : Nat} {a : Word} (hn : 0 < n) (h : s.reg .st ≤ a ∧ a ≤ s.reg .ht) :
    loadBlock a n s = .error .dataAccessViolation s := by
  obtain ⟨m, rfl⟩ := Nat.exists_eq_succ_of_ne_zero hn.ne'
  simp only [loadBlock, M.bind_apply, checkDataBounds_gap h]

/-- A block whose first address passes the check is not begun either when the stack is full. -/
theorem loadBlock_full {n : Nat} {a : Word} (hn : 0 < n) (hclear : ¬ (s.reg .st ≤ a ∧ a ≤ s.reg .ht))
    (hfull : s.reg .ht ≤ s.reg .st) : loadBlock a n s = .error .stackOverflow s := by
  obtain ⟨m, rfl⟩ := Nat.exists_eq_succ_of_ne_zero hn.ne'
  simp only [loadBlock, M.bind_apply, checkDataBounds_clear hclear, look_apply, pushData_full _ hfull]

/-- Settles O17: the first word of a block fails its check or its push, or a later push does; for LOADI after the pop. -/
theorem loadBlockFaults : Obligations.LoadBlockFaults := by
  refine ⟨fun s r n d hn => ⟨fun hgap => ?_, fun hclear hfull => ?_⟩, fun s n => ⟨exec_loadi_empty n, fun hne hn hgap => ?_⟩,
    fun s r n d hp ha hlong => ?_, fun s n hp hne ha hlong => ?_⟩
  · rw [exec_load]
    exact conclude_error (loadBlock_gap (toNat_pos_of_ne_zero hn) hgap)
  · rw [exec_load]
    exact conclude_error (loadBlock_full (toNat_pos_of_ne_zero hn) hclear hfull)
  · rw [exec_loadi_nonempty n hne]
    exact conclude_error (loadBlock_gap (toNat_pos_of_ne_zero hn) (by simpa using hgap))
  · obtain ⟨t, hload, hst, hframe, hquiet, hcopy⟩ := loadBlock_overflow hp ha hlong
    rw [exec_load]
    exact ⟨_, conclude_error hload, rfl, rfl, congrArg (· - 1) (hframe.1 .cp (by decide)), hst, hcopy, hframe, hquiet.2⟩
  · have htop := top_setReg_sub_one hne
    obtain ⟨t, hload, hst, hframe, hquiet, hcopy⟩ :=
      loadBlock_overflow (n := n.toNat) (s := s.setReg .st (s.reg .st - 1)) (a := s.below 0) hp (by simpa using ha) (by rwa [htop])
    rw [exec_loadi_nonempty n hne]
    simp only [State.reg_setReg, if_true, htop] at hcopy hframe
    exact ⟨_, conclude_error hload, rfl, rfl, congrArg (· - 1) (hframe.1 .cp (by decide)), hst, hcopy,
      frame_after_setReg (by simp) hframe, hquiet.2⟩

/-! ## STORE, STOREI -/

theorem exec_store_enough (r : Reg) {n : BitVec 8} (d : Word) (h : n.toNat ≤ s.top) :
    exec (.store r n d) s =
      conclude (storeBlock (s.calcAddress r d) (s.topWords n.toNat)) (s.setReg .st (s.reg .st - BitVec.ofNat 16 n.toNat)) := by
  change conclude _ s = _
  simp only [conclude, M.bind_apply, calcAddress_apply, popWords_enough h]

theorem exec_store_short (r : Reg) {n : BitVec 8} (d : Word) (h : s.top < n.toNat) :
    exec (.store r n d) s = .next ((s.setReg .st 0).faulted .stackUnderflow) :=
  conclude_error (by simp only [M.bind_apply, calcAddress_apply, popWords_short h])

theorem exec_storei_enough {n : BitVec 8} (h : n.toNat + 1 ≤ s.top) :
    exec (.storei n) s =
      conclude (storeBlock (s.below n.toNat) (s.topWords n.toNat)) (s.setReg .st (s.reg .st - BitVec.ofNat 16 (n.toNat + 1))) := by
  have hne : (s.setReg .st (s.reg .st - BitVec.ofNat 16 n.toNat)).reg .st ≠ 0 :=
    top_pos_iff.mp (by rw [top_setReg_sub (by omega)]; omega)
  change conclude _ s = _
  simp only [conclude, M.bind_apply, popWords_enough (Nat.le_of_succ_le h), popData_nonempty hne, below_setReg_sub, Nat.add_zero,
    State.setReg_setReg, State.reg_setReg, if_true, ← sub_ofNat_sub (s.reg .st) n.toNat 1, BitVec.ofNat_eq_ofNat]

theorem exec_storei_short {n : BitVec 8} (h : s.top < n.toNat + 1) :
    exec (.storei n) s = .next ((s.setReg .st 0).faulted .stackUnderflow) := by
  refine conclude_error ?_
  by_cases hn : n.toNat ≤ s.top
  · have hempty : s.reg .st - BitVec.ofNat 16 n.toNat = 0 :=
      BitVec.eq_of_toNat_eq (by rw [toNat_sub_ofNat _ _ hn]; exact Nat.sub_eq_zero_of_le (Nat.le_of_lt_succ h))
    simp only [M.bind_apply, popWords_enough hn, hempty, popData_empty (s := s.setReg .st 0) (by simp)]
  · simp only [M.bind_apply, popWords_short (Nat.lt_of_not_le hn)]

section AfterPops
variable {n pops : Nat} {a : Word}

/-- The words popped, stored where the block lies below the stack top that the pops left. -/
theorem conclude_storeBlock_clear (hn : n ≤ pops) (hpops : pops ≤ s.top) (h : n = 0 ∨ a.toNat + n ≤ s.top - pops) :
    ∃ t, conclude (storeBlock a (s.topWords n)) (s.setReg .st (s.reg .st - BitVec.ofNat 16 pops)) = .next t ∧
      CopiesTop s t (s.reg .st - BitVec.ofNat 16 pops) a n n := by
  have hclear := storeWords_clear (vs := (s.topWords n).reverse) (s := s.setReg .st (s.reg .st - BitVec.ofNat 16 pops)) (a := a)
    (by rw [top_setReg_sub hpops, ← List.length_eq_zero_iff, List.length_reverse, State.length_topWords]; exact h)
  rw [State.setBlock_setReg] at hclear
  exact ⟨_, conclude_ok hclear, setBlock_copiesTop_all _ a (hn.trans hpops)⟩

/-- Where the first target is in the gap, nothing is stored. -/
theorem conclude_storeBlock_gap (hn : 0 < n) (h : s.reg .st - BitVec.ofNat 16 pops ≤ a ∧ a ≤ s.reg .ht) :
    conclude (storeBlock a (s.topWords n)) (s.setReg .st (s.reg .st - BitVec.ofNat 16 pops)) =
      .next ((s.setReg .st (s.reg .st - BitVec.ofNat 16 pops)).faulted .dataAccessViolation) := by
  refine conclude_error ?_
  obtain ⟨v, vs, hvs⟩ := List.exists_cons_of_length_pos (l := (s.topWords n).reverse) (by simpa using hn)
  rw [storeBlock, hvs]
  simp only [storeWords, M.bind_apply, checkDataBounds_gap (s := s.setReg .st (s.reg .st - BitVec.ofNat 16 pops)) (by simpa using h)]

/-- Where the block runs past the stack top that the pops left, the words below it are stored. -/
theorem conclude_storeBlock_partial (hp : s.HeapPinned) (hn : n ≤ pops) (hpops : pops ≤ s.top) (h1 : a.toNat < s.top - pops)
    (h2 : s.top - pops < a.toNat + n) :
    ∃ u, conclude (storeBlock a (s.topWords n)) (s.setReg .st (s.reg .st - BitVec.ofNat 16 pops)) =
        .next (u.faulted .dataAccessViolation) ∧
      CopiesTop s u (s.reg .st - BitVec.ofNat 16 pops) a n (s.top - pops - a.toNat) := by
  have htop := top_setReg_sub hpops
  have hgap := storeWords_gap (vs := (s.topWords n).reverse) (s := s.setReg .st (s.reg .st - BitVec.ofNat 16 pops)) (a := a) hp
    (by rwa [htop]) (by rw [htop]; simpa using h2)
  rw [htop, State.setBlock_setReg] at hgap
  exact ⟨_, conclude_error hgap, setBlock_copiesTop _ a (by omega) (hn.trans hpops)⟩

end AfterPops

/-- Settles O21: the pops, then the block below the top they left. -/
theorem storeWritesBlock : Obligations.StoreWritesBlock := by
  intro s r n d hn h
  rw [exec_store_enough r d hn]
  exact conclude_storeBlock_clear (le_refl _) hn (h.imp_left toNat_eq_zero_of_eq_zero)

/-- Settles O22: as O21, with one pop more for the address under the values. -/
theorem storeiWritesBlock : Obligations.StoreiWritesBlock := by
  intro s n hn h
  rw [exec_storei_enough hn]
  exact conclude_storeBlock_clear (Nat.le_succ _) hn (h.imp_left toNat_eq_zero_of_eq_zero)

/-- Settles O23: the pops raise, or the check of the first target does. -/
theorem storeFaultsBeforeWriting : Obligations.StoreFaultsBeforeWriting := by
  refine ⟨fun s r n d => ⟨exec_store_short r d, fun hn h0 hgap => ?_⟩, fun s n => ⟨exec_storei_short, fun hn h0 hgap => ?_⟩⟩
  · rw [exec_store_enough r d hn]
    exact conclude_storeBlock_gap (toNat_pos_of_ne_zero h0) hgap
  · rw [exec_storei_enough hn]
    exact conclude_storeBlock_gap (toNat_pos_of_ne_zero h0) hgap

/-- A block copied off the stack, and then a fault taken. -/
theorem faulted_of_copiesTop {u : State} {v a : Word} {n m : Nat} (k : ErrKind) (h : CopiesTop s u v a n m) :
    (u.faulted k).status = .faulted ∧ (u.faulted k).err = k ∧ (u.faulted k).faddr = s.reg .cp - 1 ∧ (u.faulted k).reg .st = v ∧
      (∀ j < m, (u.faulted k).dataAt (a + BitVec.ofNat 16 j) = s.dataAt (s.reg .st - BitVec.ofNat 16 n + BitVec.ofNat 16 j)) ∧
      Frame [.st] (InBlock a m) s (u.faulted k) ∧ SameStreams s (u.faulted k) := by
  obtain ⟨hst, hcopy, hframe, -, hstreams⟩ := h
  exact ⟨rfl, rfl, congrArg (· - 1) (hframe.1 .cp (by decide)), hst, hcopy, hframe, hstreams⟩

/-- Settles O24: the words below the top that the pops left are stored, and the next check raises. -/
theorem storeStopsAtTheGap : Obligations.StoreStopsAtTheGap := by
  refine ⟨fun s r n d hp hn h1 h2 => ?_, fun s n hp hn h1 h2 => ?_⟩
  · obtain ⟨u, hexec, hcopies⟩ := conclude_storeBlock_partial hp (le_refl _) hn h1 h2
    exact ⟨_, by rw [exec_store_enough r d hn, hexec], faulted_of_copiesTop _ hcopies⟩
  · obtain ⟨u, hexec, hcopies⟩ := conclude_storeBlock_partial hp (Nat.le_succ _) hn h1 h2
    exact ⟨_, by rw [exec_storei_enough hn, hexec], faulted_of_copiesTop _ hcopies⟩

end Sys2Proof.Machine

/-! Settled here: the stack adjustment statements (42_stack_adjust.md) and RETURN, which shares the pops and pushes of POP
(43_control_transfer.md section 3). -/

namespace Sys2Proof.Machine

variable {s : State} {n : BitVec 8} {d : Word}

/-! ## PUSH -/

theorem exec_push (h : 0 ≤ d.toInt) :
    exec (.push d) s = conclude (do
      raiseIf .stackOverflow ((s.reg .ht).toNat ≤ s.top + d.toNat)
      update (·.setReg .st (BitVec.ofNat 16 (s.top + d.toNat)))) s := by
  change conclude _ s = _
  simp only [conclude, M.bind_apply, countOf_nonneg h, look_apply]
  rfl

theorem exec_push_negative (h : d.toInt < 0) : exec (.push d) s = .next (s.faulted .illegalInstruction) :=
  conclude_error (by simp only [M.bind_apply, countOf_negative h])

/-- Settles O25: the count, then one comparison of unbounded integers, then one register. -/
theorem pushReservesWords : Obligations.PushReservesWords := by
  refine fun s d => ⟨fun h0 hroom => ?_, fun h0 hfull => ?_, exec_push_negative⟩
  · have hsum : BitVec.ofNat 16 (s.top + d.toNat) = s.reg .st + d := by simp [State.top, BitVec.ofNat_add]
    rw [exec_push h0, ← hsum]
    exact conclude_ok (by simp only [M.bind_apply, raiseIf_false _ _ (Nat.not_le.mpr hroom), update_apply])
  · rw [exec_push h0]
    exact conclude_error (by simp only [M.bind_apply, raiseIf_true _ _ hfull])

/-! ## POP and RETURN, up to the push of the kept words -/

theorem exec_pop_negative (h : d.toInt < 0) : exec (.pop n d) s = .next (s.faulted .illegalInstruction) :=
  conclude_error (by simp only [M.bind_apply, countOf_negative h])

theorem exec_ret_negative (h : d.toInt < 0) : exec (.ret n d) s = .next (s.faulted .illegalInstruction) :=
  conclude_error (by simp only [M.bind_apply, countOf_negative h])

theorem top_setReg {a : Word} : (s.setReg .st a).top = a.toNat := by simp [State.top]

/-- Discarding as many words as a count word says. -/
theorem discardWords_count (h : d.toNat ≤ s.top) : discardWords d.toNat s = .ok () (s.setReg .st (s.reg .st - d)) := by
  rw [discardWords_enough h, BitVec.ofNat_toNat, BitVec.setWidth_eq]

theorem exec_pop_short (h0 : 0 ≤ d.toInt) (h : s.top < n.toNat + d.toNat) :
    exec (.pop n d) s = .next ((s.setReg .st 0).faulted .stackUnderflow) := by
  refine conclude_error ?_
  simp only [M.bind_apply, countOf_nonneg h0]
  by_cases hn : n.toNat ≤ s.top
  · have hshort : (s.setReg .st (s.reg .st - BitVec.ofNat 16 n.toNat)).top < d.toNat := by rw [top_setReg_sub hn]; omega
    rw [popWords_enough hn]
    simp only [discardWords_short hshort, State.setReg_setReg]
  · rw [popWords_short (Nat.lt_of_not_le hn)]

theorem exec_pop_enough (h0 : 0 ≤ d.toInt) (h : n.toNat + d.toNat ≤ s.top) :
    exec (.pop n d) s =
      conclude (pushWords (s.topWords n.toNat).reverse) (s.setReg .st (s.reg .st - BitVec.ofNat 16 n.toNat - d)) := by
  have hd : d.toNat ≤ (s.setReg .st (s.reg .st - BitVec.ofNat 16 n.toNat)).top := by rw [top_setReg_sub (by omega)]; omega
  change conclude _ s = _
  simp only [conclude, M.bind_apply, countOf_nonneg h0, popWords_enough (Nat.le_of_add_right_le h), discardWords_count hd,
    State.setReg_setReg, State.reg_setReg, if_true]

theorem exec_ret_short (h0 : 0 ≤ d.toInt) (h : s.top < n.toNat ∨ (s.reg .lb).toNat < d.toNat) :
    exec (.ret n d) s = .next ((s.setReg .st 0).faulted .stackUnderflow) := by
  refine conclude_error ?_
  simp only [M.bind_apply, countOf_nonneg h0]
  by_cases hn : n.toNat ≤ s.top
  · have hlb := h.resolve_left (Nat.not_lt.mpr hn)
    have hshort : (s.setReg .st (s.reg .lb)).top < d.toNat := by rwa [top_setReg]
    rw [popWords_enough hn]
    simp only [look_apply, update_apply, State.reg_setReg, reduceCtorEq, if_false, State.setReg_setReg, discardWords_short hshort]
  · rw [popWords_short (Nat.lt_of_not_le hn)]

/-- The end of CALL and of RETURN: `LB` and `CP` are written, `LB` from the state the pushes left (43_control_transfer.md R106, R108). -/
def enterFrame (lb : State → Word) (cp : Word) : M Unit := update fun u => (u.setReg .lb (lb u)).setReg .cp cp

theorem exec_ret_enough (h0 : 0 ≤ d.toInt) (hn : n.toNat ≤ s.top) (hd : d.toNat ≤ (s.reg .lb).toNat) :
    exec (.ret n d) s =
      conclude (pushWords (s.topWords n.toNat).reverse >>= fun _ =>
          enterFrame (fun _ => s.dataAt (s.reg .lb + 1)) (s.dataAt (s.reg .lb + 2)))
        (s.setReg .st (s.reg .lb - d)) := by
  have hlb : d.toNat ≤ (s.setReg .st (s.reg .lb)).top := by rwa [top_setReg]
  change conclude _ s = _
  simp only [conclude, M.bind_apply, countOf_nonneg h0, popWords_enough hn, look_apply, update_apply, State.reg_setReg, reduceCtorEq,
    if_false, if_true, State.dataAt_setReg, State.setReg_setReg, discardWords_count hlb, enterFrame]

/-! ## The kept words pushed -/

/-- The top words pushed from `a` on, where there is room. -/
theorem pushWords_topWords_room {m : Nat} {a : Word} (hp : s.HeapPinned) (hm : m ≤ s.top) (h : a.toNat + m ≤ 65535) :
    ∃ u, pushWords (s.topWords m).reverse (s.setReg .st a) = .ok () u ∧ CopiesTop s u (a + BitVec.ofNat 16 m) a m m := by
  have hpush := pushWords_room (vs := (s.topWords m).reverse) (s := s.setReg .st a)
    (by rw [top_setReg, toNat_ht (s := s.setReg .st a) hp]; simpa using h)
  simp only [State.reg_setReg, if_true, State.setBlock_setReg, State.setReg_setReg, List.length_reverse, State.length_topWords] at hpush
  exact ⟨_, hpush, setBlock_copiesTop_all _ a hm⟩

/-- The top words pushed from `a` on, where there is not room for all: those that fit, the deepest first. -/
theorem pushWords_topWords_overflow {m : Nat} {a : Word} (hp : s.HeapPinned) (hm : m ≤ s.top) (h : 65535 < a.toNat + m) :
    ∃ u, pushWords (s.topWords m).reverse (s.setReg .st a) = .error .stackOverflow u ∧
      CopiesTop s u 0xFFFF a m (65535 - a.toNat) := by
  have hpush := pushWords_overflow (vs := (s.topWords m).reverse) (s := s.setReg .st a) hp (by rw [top_setReg]; simpa using h)
  simp only [State.reg_setReg, if_true, State.setBlock_setReg, State.setReg_setReg, top_setReg] at hpush
  exact ⟨_, hpush, setBlock_copiesTop _ a (by omega) hm⟩

theorem toNat_sub_of_toNat_le {a b : Word} (h : b.toNat ≤ a.toNat) : (a - b).toNat = a.toNat - b.toNat :=
  BitVec.toNat_sub_of_le (BitVec.le_def.mpr h)

/-- Where POP pushes the kept words. -/
theorem toNat_pop_base (h : n.toNat + d.toNat ≤ s.top) :
    (s.reg .st - BitVec.ofNat 16 n.toNat - d).toNat = s.top - n.toNat - d.toNat := by
  have hsub := toNat_sub_ofNat (s.reg .st) n.toNat (Nat.le_of_add_right_le h)
  unfold State.top at h ⊢
  rw [toNat_sub_of_toNat_le (by omega), hsub]

/-- After its pops POP has room for the kept words. -/
theorem pop_room (h : n.toNat + d.toNat ≤ s.top) : (s.reg .st - BitVec.ofNat 16 n.toNat - d).toNat + n.toNat ≤ 65535 := by
  have htop := top_le s
  rw [toNat_pop_base h]
  omega

/-- Settles O26: after the pops there is room for the kept words, which are pushed `D` addresses lower. -/
theorem popRemovesBlock : Obligations.PopRemovesBlock := by
  intro s n d hp h0 h
  obtain ⟨u, hpush, hst, hcopy, hframe, hquiet⟩ := pushWords_topWords_room hp (Nat.le_of_add_right_le h) (pop_room h)
  rw [exec_pop_enough h0 h]
  exact ⟨u, conclude_ok hpush, by rw [hst, sub_right_comm, sub_add_cancel], hcopy, hframe, hquiet⟩

/-- Settles O27: a negative count, missing words, or results that do not fit, each before the links go back. -/
theorem popAndReturnFaults : Obligations.PopAndReturnFaults := by
  refine fun s n d => ⟨fun h => ⟨exec_pop_negative h, exec_ret_negative h⟩, exec_pop_short, exec_ret_short,
    fun hp h0 hn hd hlong => ?_⟩
  have hbase := toNat_sub_of_toNat_le hd
  obtain ⟨u, hpush, hcopies⟩ := pushWords_topWords_overflow (a := s.reg .lb - d) hp hn (by rwa [hbase])
  rw [hbase] at hcopies
  refine ⟨u.faulted .stackOverflow, ?_, faulted_of_copiesTop _ hcopies⟩
  rw [exec_ret_enough h0 hn hd]
  exact conclude_error (by simp only [M.bind_apply, hpush])

/-- Settles O31: the results pushed where the arguments were, then the two links. -/
theorem returnUnwindsFrame : Obligations.ReturnUnwindsFrame := by
  intro s n d hp h0 hn hd hroom
  obtain ⟨u, hpush, hst, hcopy, hframe, hquiet⟩ :=
    pushWords_topWords_room (a := s.reg .lb - d) hp hn (by rwa [toNat_sub_of_toNat_le hd])
  rw [exec_ret_enough h0 hn hd]
  refine ⟨(u.setReg .lb (s.dataAt (s.reg .lb + 1))).setReg .cp (s.dataAt (s.reg .lb + 2)),
    conclude_ok (by simp only [M.bind_apply, hpush, enterFrame, update_apply]), by simpa using hst, by simp, by simp, hcopy, ?_, hquiet⟩
  exact frame_then_setReg _ (by simp) (frame_then_setReg _ (by simp) (frame_mono (by simp) hframe))

end Sys2Proof.Machine

/-! Settled here: the other control transfer statements (43_control_transfer.md). -/

namespace Sys2Proof.Machine

variable {s : State}

/-! ## CALL -/

theorem exec_call_frame {r : Reg} {d : Word} (n : BitVec 8) (h : selectsPrimitive r d = false) :
    exec (.call r n d) s = conclude (callFrame r n d) s := by
  change execCall r n d s = _
  rw [execCall, h]
  rfl

theorem callFrame_beyond {r : Reg} {d : Word} (n : BitVec 8) (h : s.reg .ct ≤ s.calcAddress r d) :
    callFrame r n d s = .error .codeAccessViolation s := by
  simp only [callFrame, M.bind_apply, calcAddress_apply, look_apply, raiseIf_true _ _ h]

theorem callFrame_noRegister {r : Reg} {n : BitVec 8} {d : Word} (hc : s.calcAddress r d < s.reg .ct) (hn : 16 ≤ n.toNat) :
    callFrame r n d s = .error .illegalInstruction s := by
  simp only [callFrame, M.bind_apply, calcAddress_apply, look_apply, raiseIf_false _ _ (BitVec.not_le.mpr hc), staticLink_none hn]

/-- Settles O28: the three links are the block the frame law writes. -/
theorem callBuildsFrame : Obligations.CallBuildsFrame := by
  rintro s r q n d hsel hp hc rfl hroom
  have hword : ∀ k (hk : k < 3), (s.setBlock (s.reg .st) [s.reg q, s.reg .lb, s.reg .cp]).dataAt (s.reg .st + BitVec.ofNat 16 k) =
      [s.reg q, s.reg .lb, s.reg .cp][k] := fun k hk => State.dataAt_setBlock_inside hk (by simp)
  have hfirst := hword 0 (by decide)
  rw [BitVec.add_zero] at hfirst
  rw [exec_call_frame _ hsel]
  refine ⟨_, conclude_ok (callFrame_room hp hc (staticLink_reg q) hroom), by simp, by simp, by simp, hfirst, hword 1 (by decide),
    hword 2 (by decide), ?_, quiet_setBlock s (s.reg .st) [s.reg q, s.reg .lb, s.reg .cp]⟩
  exact frame_then_setReg _ (by simp) (frame_then_setReg _ (by simp) (frame_then_setReg _ (by simp) (frame_setBlock s _ _)))

/-- Settles O29: the target, the register number and the first push are checked in this order. -/
theorem callFaultsBeforePushing : Obligations.CallFaultsBeforePushing := by
  intro s r n d hsel
  rw [exec_call_frame n hsel]
  refine ⟨fun h => conclude_error (callFrame_beyond n h), fun hc hn => conclude_error (callFrame_noRegister hc hn),
    fun hc hn hfull => conclude_error ?_⟩
  obtain ⟨q, rfl⟩ := regOfCount_some hn
  simp only [callFrame, M.bind_apply, calcAddress_apply, look_apply, raiseIf_false _ _ (BitVec.not_le.mpr hc), staticLink_reg,
    pushData_full _ hfull]

/-- Settles O60: the links that fit are the block the overflow law leaves. -/
theorem callOverflowKeepsPushes : Obligations.CallOverflowKeepsPushes := by
  rintro s r q n d hsel hp hc rfl hlong
  have hlen : ([s.reg q, s.reg .lb, s.reg .cp].take (65535 - s.top)).length = 65535 - s.top := by
    rw [List.length_take]
    simp only [List.length_cons, List.length_nil]
    omega
  have hword : ∀ k (hk : k < 65535 - s.top) (h3 : k < 3),
      (s.setBlock (s.reg .st) ([s.reg q, s.reg .lb, s.reg .cp].take (65535 - s.top))).dataAt (s.reg .st + BitVec.ofNat 16 k) =
        [s.reg q, s.reg .lb, s.reg .cp][k] := by
    intro k hk h3
    rw [State.dataAt_setBlock_inside (by omega) (by omega), List.getElem_take]
  have hframe := frame_setBlock (regs := [.st]) s (s.reg .st) ([s.reg q, s.reg .lb, s.reg .cp].take (65535 - s.top))
  rw [hlen] at hframe
  rw [exec_call_frame _ hsel]
  refine ⟨_, conclude_error (callFrame_overflow hp hc (staticLink_reg q) hlong), rfl, rfl, by simp, by simp, fun h => ?_,
    fun h => hword 1 (by omega) (by decide), frame_then_setReg _ (by simp) hframe, (quiet_setBlock s _ _).2⟩
  have hfirst := hword 0 (by omega) (by decide)
  rwa [BitVec.add_zero] at hfirst

/-- A frame-path `CALL` that does not fault passed its checks and had the room. -/
theorem call_completes {t : State} {r : Reg} {n : BitVec 8} {d : Word} (hsel : selectsPrimitive r d = false) (hp : s.HeapPinned)
    (hexec : exec (.call r n d) s = .next t) (ht : t.status ≠ .faulted) :
    s.calcAddress r d < s.reg .ct ∧ n.toNat < 16 ∧ s.top + 3 ≤ 65535 := by
  rw [exec_call_frame n hsel] at hexec
  have hraise : ∀ k u, callFrame r n d s ≠ .error k u := by
    intro k u h
    rw [conclude_error h] at hexec
    cases hexec
    exact ht rfl
  have hc : s.calcAddress r d < s.reg .ct := by
    by_contra h
    exact hraise _ _ (callFrame_beyond n (BitVec.not_lt.mp h))
  refine ⟨hc, ?_, ?_⟩
  · by_contra h
    exact hraise _ _ (callFrame_noRegister hc (Nat.le_of_not_lt h))
  · by_contra h
    obtain ⟨k, u, herr⟩ := callFrame_raises (r := r) (n := n) (d := d) hp (Nat.lt_of_not_le h)
    exact hraise _ _ herr

/-- The words on top of a stack, by their distance from the base of the block they make. -/
theorem below_eq_dataAt {a : Word} {m k : Nat} (h : s.reg .st = a + BitVec.ofNat 16 m) (hk : k < m) :
    s.below k = s.dataAt (a + BitVec.ofNat 16 (m - 1 - k)) := by
  obtain ⟨j, rfl⟩ : ∃ j, m = j + (k + 1) := ⟨m - (k + 1), by omega⟩
  rw [State.below, h, show j + (k + 1) - 1 - k = j by omega, ← add_ofNat_add, add_sub_cancel_right]

/-- Settles O32: the call's links are where RETURN reads them, and the results land where the arguments were. -/
theorem callThenReturnRestores : Obligations.CallThenReturnRestores := by
  intro s t u r n m d e hsel hp hcall _ hrun hup hlb hdl hra htop he0 hes
  obtain ⟨hc, hn, hroom⟩ := call_completes hsel hp hcall (by simp [hrun])
  obtain ⟨q, hq⟩ := regOfCount_some hn
  obtain ⟨t', hcall', htst, htlb, -, -, hdl', hra', -, -⟩ := callBuildsFrame s r q n d hsel hp hc hq hroom
  obtain rfl : t' = t := by
    rw [hcall] at hcall'
    cases hcall'
    rfl
  have hbase : u.reg .lb = s.reg .st := hlb.trans htlb
  have ht3 : t'.top = s.top + 3 := by
    unfold State.top at hroom ⊢
    rw [htst]
    exact toNat_add_ofNat _ 3 (by omega)
  have hutop := top_le u
  have hdepth : (u.reg .lb).toNat = s.top := by rw [hbase, State.top]
  obtain ⟨v, hret, hvst, hvlb, hvcp, hcopy, -, hquiet⟩ :=
    returnUnwindsFrame u m e hup he0 (by omega) (by omega) (by omega)
  refine ⟨v, hret, ?_, ?_, by rw [hvst, hbase], fun k hk => ?_, hquiet⟩
  · rw [hvcp, hlb, hra, htlb, hra']
  · rw [hvlb, hlb, hdl, htlb, hdl']
  · rw [below_eq_dataAt hvst hk, below_eq_dataAt (sub_add_cancel (u.reg .st) (BitVec.ofNat 16 m.toNat)).symm hk]
    exact hcopy _ (by omega)

/-! ## JUMPI, JUMPIF -/

theorem exec_jumpi_empty (h : s.reg .st = 0) : exec .jumpi s = .next (s.faulted .stackUnderflow) :=
  conclude_error (by simp only [M.bind_apply, popData_empty h])

theorem exec_jumpi_nonempty (h : s.reg .st ≠ 0) :
    exec .jumpi s = conclude (jumpTo (s.below 0)) (s.setReg .st (s.reg .st - 1)) := by
  change conclude _ s = _
  simp only [conclude, M.bind_apply, popData_nonempty h]

/-- Settles O35: one pop, then one checked jump. -/
theorem jumpiPopsTarget : Obligations.JumpiPopsTarget := by
  refine fun s => ⟨exec_jumpi_empty, fun hne hin => ?_, fun hne hout => ?_⟩
  · rw [exec_jumpi_nonempty hne]
    exact conclude_ok (jumpTo_inside (by simpa using hin))
  · rw [exec_jumpi_nonempty hne]
    exact conclude_error (jumpTo_beyond (by simpa using hout))

theorem exec_jumpif_empty (r : Reg) (n : BitVec 8) (d : Word) (h : s.reg .st = 0) :
    exec (.jumpif r n d) s = .next (s.faulted .stackUnderflow) :=
  conclude_error (by simp only [M.bind_apply, calcAddress_apply, popSigned_empty h])

theorem exec_jumpif_other (r : Reg) {n : BitVec 8} (d : Word) (h : s.reg .st ≠ 0) (hn : (s.below 0).toInt ≠ n.toNat) :
    exec (.jumpif r n d) s = .next (s.setReg .st (s.reg .st - 1)) :=
  conclude_ok (by simp only [M.bind_apply, calcAddress_apply, popSigned_nonempty h, if_neg hn, M.pure_apply])

theorem exec_jumpif_equal (r : Reg) {n : BitVec 8} (d : Word) (h : s.reg .st ≠ 0) (hn : (s.below 0).toInt = n.toNat) :
    exec (.jumpif r n d) s = conclude (jumpTo (s.calcAddress r d)) (s.setReg .st (s.reg .st - 1)) := by
  change conclude _ s = _
  simp only [conclude, M.bind_apply, calcAddress_apply, popSigned_nonempty h, if_pos hn]

/-- Settles O36: one pop, and a checked jump only when the word is `N`. -/
theorem jumpifTestsPoppedWord : Obligations.JumpifTestsPoppedWord := by
  refine fun s r n d => ⟨exec_jumpif_empty r n d, exec_jumpif_other r d, fun hne hn hin => ?_, fun hne hn hout => ?_⟩
  · rw [exec_jumpif_equal r d hne hn]
    exact conclude_ok (jumpTo_inside (by simpa using hin))
  · rw [exec_jumpif_equal r d hne hn]
    exact conclude_error (jumpTo_beyond (by simpa using hout))

end Sys2Proof.Machine

/-! Settled here: the statements on the routines of the ALU (44_primitives_alu.md). -/

namespace Sys2Proof.Machine

variable {s : State} {i : Instr}

/-! ## Which routine an instruction is -/

theorem exec_unary (hi : i ∈ [Instr.primNot, .primSucc, .primPred, .primNeg]) : ∃ f, ∀ s, exec i s = conclude (unaryRoutine f) s := by
  simp only [List.mem_cons, List.not_mem_nil, or_false] at hi
  obtain rfl | rfl | rfl | rfl := hi <;> exact ⟨_, fun _ => rfl⟩

theorem exec_binary (hi : i ∈ [Instr.primAnd, .primOr, .primAdd, .primSub, .primMult, .primLt, .primLe, .primGe, .primGt]) :
    ∃ f, ∀ s, exec i s = conclude (binaryRoutine f) s := by
  simp only [List.mem_cons, List.not_mem_nil, or_false] at hi
  obtain rfl | rfl | rfl | rfl | rfl | rfl | rfl | rfl | rfl := hi <;> exact ⟨_, fun _ => rfl⟩

theorem exec_dividing (hi : i ∈ [Instr.primDiv, .primMod]) : ∃ f, ∀ s, exec i s = conclude (dividingRoutine f) s := by
  simp only [List.mem_cons, List.not_mem_nil, or_false] at hi
  obtain rfl | rfl := hi <;> exact ⟨_, fun _ => rfl⟩

/-- `eq` and `neq` push a truth word of the comparison. -/
theorem exec_compare (hi : i ∈ [Instr.primEq, .primNeq]) :
    ∃ f : Bool → Word, ∀ s, exec i s = conclude (blockCompare >>= fun e => pushData (f e)) s := by
  simp only [List.mem_cons, List.not_mem_nil, or_false] at hi
  obtain rfl | rfl := hi
  · exact ⟨truthWord, fun _ => rfl⟩
  · exact ⟨fun e => truthWord (!e), fun _ => rfl⟩

/-! ## Results as words -/

theorem wrap16_add (a b : Word) : wrap16 (a.toInt + b.toInt) = a + b := by
  rw [wrap16, BitVec.ofInt_add, BitVec.ofInt_toInt, BitVec.ofInt_toInt]

theorem wrap16_neg (a : Word) : wrap16 (-a.toInt) = -a := by rw [wrap16, BitVec.ofInt_neg, BitVec.ofInt_toInt]

theorem wrap16_sub (a b : Word) : wrap16 (a.toInt - b.toInt) = a - b := by
  rw [wrap16, Int.sub_eq_add_neg, BitVec.ofInt_add, BitVec.ofInt_neg, BitVec.ofInt_toInt, BitVec.ofInt_toInt, ← BitVec.sub_eq_add_neg]

theorem wrap16_mul (a b : Word) : wrap16 (a.toInt * b.toInt) = a * b := by
  rw [wrap16, BitVec.ofInt_mul, BitVec.ofInt_toInt, BitVec.ofInt_toInt]

theorem truthWord_decide (p : Prop) [Decidable p] : truthWord (decide p) = if p then 1 else 0 := by simp [truthWord]

theorem toInt_eq_zero_iff {a : Word} : a.toInt = 0 ↔ a = 0 := by rw [← BitVec.toInt_inj, BitVec.ofNat_eq_ofNat, BitVec.toInt_zero]

/-! ## Results delivered -/

theorem exec_unary_delivers {f : Int → Word} {w : Word} (hexec : exec i s = conclude (unaryRoutine f) s) (hp : s.HeapPinned)
    (h : s.reg .st ≠ 0) (hw : f (s.below 0).toInt = w) : ∃ t, exec i s = .next t ∧ Delivers s t 1 w := by
  rw [hexec, ← hw]
  exact unaryRoutine_delivers f hp h

theorem exec_binary_delivers {f : Int → Int → Word} {w : Word} (hexec : exec i s = conclude (binaryRoutine f) s) (hp : s.HeapPinned)
    (h : 2 ≤ s.top) (hw : f (s.below 1).toInt (s.below 0).toInt = w) : ∃ t, exec i s = .next t ∧ Delivers s t 2 w := by
  rw [hexec, ← hw]
  exact binaryRoutine_delivers f hp h

/-- Settles O38: one operand, and its result as a word. -/
theorem unaryRoutinesReplaceTop : Obligations.UnaryRoutinesReplaceTop := by
  refine fun s hp h => ⟨exec_unary_delivers rfl hp h ?_, exec_unary_delivers rfl hp h (wrap16_add _ 1),
    exec_unary_delivers rfl hp h (wrap16_sub _ 1), exec_unary_delivers rfl hp h (wrap16_neg _)⟩
  simp only [truthWord_decide, toInt_eq_zero_iff]

/-- Settles O39: two operands, the deeper one on the left, and their result as a word. -/
theorem arithmeticRoutinesReplaceTopTwo : Obligations.ArithmeticRoutinesReplaceTopTwo := fun _ hp h =>
  ⟨exec_binary_delivers rfl hp h (wrap16_add _ _), exec_binary_delivers rfl hp h (wrap16_add _ _),
    exec_binary_delivers rfl hp h (wrap16_sub _ _), exec_binary_delivers rfl hp h (wrap16_mul _ _),
    exec_binary_delivers rfl hp h (wrap16_mul _ _)⟩

/-- Settles O41: the truth word of the signed comparison. -/
theorem orderRoutinesCompareSigned : Obligations.OrderRoutinesCompareSigned := fun _ hp h =>
  ⟨exec_binary_delivers rfl hp h (truthWord_decide _), exec_binary_delivers rfl hp h (truthWord_decide _)⟩

/-- The truth word of the shared comparison of `ge` and `gt`. -/
theorem truthWord_geGt (a b : Word) :
    truthWord (geGt a.toInt b.toInt) = if a = b then truthWord Config.geGtEq else if b.toInt < a.toInt then 1 else 0 := by
  by_cases h : a = b
  · simp [geGt, h]
  · rw [geGt, if_neg (mt BitVec.toInt_inj.mp h), if_neg h, truthWord_decide]

/-- Settles O42: both run the one comparison, whose word on equal operands is that of the open parameter. -/
theorem geAndGtShareOneComparison : Obligations.GeAndGtShareOneComparison := by
  refine ⟨truthWord Config.geGtEq, ?_, fun s hp h i hi => ?_⟩
  · cases Config.geGtEq
    · exact .inl rfl
    · exact .inr rfl
  · simp only [List.mem_cons, List.not_mem_nil, or_false] at hi
    obtain rfl | rfl := hi <;> exact exec_binary_delivers rfl hp h (truthWord_geGt _ _)

/-- The remainder of a truncating division is 0 or has the sign of the dividend. -/
theorem tmod_sign (a b : Int) : a.tmod b = 0 ∨ (0 < a.tmod b ↔ 0 < a) := by
  have hsign := Int.sign_tmod a b
  split at hsign
  · exact .inl (Int.sign_eq_zero_iff_zero.mp hsign)
  · exact .inr (by rw [← Int.sign_eq_one_iff_pos, hsign, Int.sign_eq_one_iff_pos])

/-- Settles O40: the quotient is Lean's truncating one, and the remainder its `tmod`. -/
theorem divisionTruncatesTowardZero : Obligations.DivisionTruncatesTowardZero := by
  intro s hp h hb
  have hne : (s.below 0).toInt ≠ 0 := mt toInt_eq_zero_iff.mp hb
  have hmod := Int.tdiv_mul_add_tmod (s.below 1).toInt (s.below 0).toInt
  refine ⟨(s.below 1).toInt.tdiv (s.below 0).toInt, (s.below 1).toInt.tmod (s.below 0).toInt, hmod.symm, ?_, tmod_sign _ _,
    dividingRoutine_delivers _ hp h hne, ?_⟩
  · rw [Int.natAbs_tmod]
    exact Nat.mod_lt _ (Int.natAbs_pos.mpr hne)
  · rw [eq_sub_of_add_eq' hmod]
    exact dividingRoutine_delivers _ hp h hne

/-- A comparison of two blocks that are there delivers its word in place of them and the length. -/
theorem exec_compare_delivers {f : Bool → Word} {k : Nat} {w : Word}
    (hexec : exec i s = conclude (blockCompare >>= fun e => pushData (f e)) s) (hp : s.HeapPinned) (h0 : 0 ≤ (s.below 0).toInt)
    (hk : (s.below 0).toNat = k) (h : 1 + 2 * k ≤ s.top) (hw : f (decide (∀ j < k, s.below (1 + j) = s.below (1 + k + j))) = w) :
    ∃ t, exec i s = .next t ∧ Delivers s t (1 + 2 * k) w := by
  obtain ⟨t, hpush, hdelivers⟩ := pushData_delivers w (room_after_pops hp (by omega) h)
  exact ⟨t, hexec.trans (conclude_ok (by simp only [M.bind_apply, blockCompare_enough h0 hk h, hw]; exact hpush)), hdelivers⟩

/-- Settles O43: the blocks are equal or they are not, and each routine pushes the truth word of its own reading of that. -/
theorem blockCompareRoutines : Obligations.BlockCompareRoutines := by
  refine fun s k hp h0 hk h => ⟨fun heq => ⟨?_, ?_⟩, fun hne => ⟨?_, ?_⟩⟩
  · exact exec_compare_delivers (f := truthWord) rfl hp h0 hk h (by rw [decide_eq_true heq]; rfl)
  · exact exec_compare_delivers (f := fun e => truthWord (!e)) rfl hp h0 hk h (by rw [decide_eq_true heq]; rfl)
  · exact exec_compare_delivers (f := truthWord) rfl hp h0 hk h (by rw [decide_eq_false hne]; rfl)
  · exact exec_compare_delivers (f := fun e => truthWord (!e)) rfl hp h0 hk h (by rw [decide_eq_false hne]; rfl)

/-! ## Faults -/

theorem unaryRoutine_empty (f : Int → Word) (h : s.reg .st = 0) : unaryRoutine f s = .error .stackUnderflow s := by
  simp only [unaryRoutine, M.bind_apply, popSigned_empty h]

theorem binaryRoutine_short (f : Int → Int → Word) (h : s.top < 2) :
    binaryRoutine f s = .error .stackUnderflow (s.setReg .st 0) := by
  simp only [binaryRoutine, M.bind_apply, pop2_short h]

theorem dividingRoutine_short (f : Int → Int → Word) (h : s.top < 2) :
    dividingRoutine f s = .error .stackUnderflow (s.setReg .st 0) := by
  simp only [dividingRoutine, M.bind_apply, pop2_short h]

theorem dividingRoutine_zero (f : Int → Int → Word) (h : 2 ≤ s.top) (hb : s.below 0 = 0) :
    dividingRoutine f s = .error .arithmeticFault (s.setReg .st (s.reg .st - 2)) := by
  simp only [dividingRoutine, M.bind_apply, pop2_enough h, raiseIf_true _ _ (toInt_eq_zero_iff.mpr hb)]

/-- A stream routine that pops its operand takes stack-underflow when there is none (45_primitives_io.md R153, R154, R157, R158). -/
theorem exec_stream_empty (hi : i ∈ [Instr.primPut, .primPutint, .primGet, .primGetint]) (h : s.reg .st = 0) :
    exec i s = .next (s.faulted .stackUnderflow) := by
  simp only [List.mem_cons, List.not_mem_nil, or_false] at hi
  obtain rfl | rfl | rfl | rfl := hi <;> refine conclude_error ?_ <;> simp only [M.bind_apply, popSigned_empty h, popData_empty h]

/-- Settles O44: each family raises at its pops, and the dividing one after them when the divisor is 0. -/
theorem routineFaults : Obligations.RoutineFaults := by
  refine fun s i => ⟨fun hi h => ?_, fun hi h => ?_, fun hi h hb => ?_⟩
  · obtain hu | hs : i ∈ [Instr.primNot, .primSucc, .primPred, .primNeg] ∨ i ∈ [Instr.primPut, .primPutint, .primGet, .primGetint] :=
      List.mem_append.mp hi
    · obtain ⟨f, hexec⟩ := exec_unary hu
      exact (hexec s).trans (conclude_error (unaryRoutine_empty f h))
    · exact exec_stream_empty hs h
  · by_cases hd : i ∈ [Instr.primDiv, .primMod]
    · obtain ⟨f, hexec⟩ := exec_dividing hd
      exact (hexec s).trans (conclude_error (dividingRoutine_short f h))
    · obtain ⟨f, hexec⟩ := exec_binary (i := i) (by simp only [List.mem_cons, List.not_mem_nil, or_false] at hi hd ⊢; tauto)
      exact (hexec s).trans (conclude_error (binaryRoutine_short f h))
  · obtain ⟨f, hexec⟩ := exec_dividing hi
    exact (hexec s).trans (conclude_error (dividingRoutine_zero f h hb))

/-- Settles O45: the comparison raises before its push. -/
theorem blockCompareFaults : Obligations.BlockCompareFaults := by
  intro s i hi
  obtain ⟨f, hexec⟩ := exec_compare hi
  rw [hexec]
  refine ⟨fun h => ?_, fun h hneg => ?_, fun h h0 hshort => ?_⟩ <;> refine conclude_error ?_
  · simp only [M.bind_apply, blockCompare_empty h]
  · simp only [M.bind_apply, blockCompare_negative h hneg]
  · simp only [M.bind_apply, blockCompare_short h h0 hshort]

end Sys2Proof.Machine

/-! Settled here: the statements on the stream routines (45_primitives_io.md). -/

namespace Sys2Proof.Machine

variable {s : State}

/-! ## Peeking -/

theorem exec_primEol (s : State) : exec .primEol s = conclude (pushData (truthWord (decide (s.input.head? = some lineFeed)))) s := rfl

theorem exec_primEof (s : State) : exec .primEof s = conclude (pushData (truthWord (decide (s.input.head? = none)))) s := rfl

/-- Settles O46: each is one push of a truth word about the input. -/
theorem eolAndEofPeek : Obligations.EolAndEofPeek := by
  intro s
  rw [exec_primEol, exec_primEof, truthWord_decide, truthWord_decide]
  simp only [List.head?_eq_none_iff]
  exact ⟨fun h => ⟨conclude_pushData_delivers _ h, conclude_pushData_delivers _ h⟩,
    fun h => ⟨conclude_pushData_full _ h, conclude_pushData_full _ h⟩⟩

/-! ## Writing -/

theorem exec_primPut_nonempty (h : s.reg .st ≠ 0) :
    exec .primPut s = .next ((s.setReg .st (s.reg .st - 1)).emit [lowByte (s.below 0)]) :=
  conclude_ok (by simp only [M.bind_apply, popData_nonempty h, outWrite_apply])

theorem exec_primPuteol (s : State) : exec .primPuteol s = .next (s.emit [lineFeed]) := rfl

theorem toNat_lowByte (w : Word) : (lowByte w).toNat = w.toNat % 256 := by simp [lowByte, BitVec.extractLsb'_toNat]

/-- Only the stack pointer, among registers, data and code, changes when a routine pops and writes output. -/
theorem frame_emit (v : Word) (bytes : List Byte) : Frame [.st] (fun _ => False) s ((s.setReg .st v).emit bytes) :=
  frame_then_setReg v (by simp) (frame_refl s)

/-- Settles O48: the state each leaves is written out. -/
theorem putAndPuteolWrite : Obligations.PutAndPuteolWrite := fun s =>
  ⟨fun h => ⟨_, lowByte (s.below 0), exec_primPut_nonempty h, by simp, rfl, toNat_lowByte _, rfl, frame_emit _ _, rfl, rfl, rfl⟩,
    ⟨_, exec_primPuteol s, rfl, rfl, frame_refl s, rfl, rfl, rfl⟩⟩

/-! ## Reading -/

/-- Settles O49: the law of a line that is there. -/
theorem geteolSkipsLine : Obligations.GeteolSkipsLine := by
  intro s line rest hin hline
  exact ⟨s.setInput rest, conclude_ok (readLine_line hin hline), rfl, rfl, frame_refl s, rfl, rfl, rfl⟩

theorem exec_primGet_nonempty (h : s.reg .st ≠ 0) :
    exec .primGet s = conclude (do
      checkDataBounds (s.below 0)
      let b ← inRead
      update (·.setData (s.below 0) (zextByte b))) (s.setReg .st (s.reg .st - 1)) := by
  change conclude _ s = _
  simp only [conclude, M.bind_apply, popData_nonempty h]

theorem exec_primGetint_nonempty (h : s.reg .st ≠ 0) :
    exec .primGetint s = conclude (do
      checkDataBounds (s.below 0)
      let i ← parseInput
      update (·.setData (s.below 0) (wrap16 i))) (s.setReg .st (s.reg .st - 1)) := by
  change conclude _ s = _
  simp only [conclude, M.bind_apply, popData_nonempty h]

/-- An address below the stack top passes the check. -/
theorem checkDataBounds_below {a : Word} (h : a < s.reg .st) : checkDataBounds a s = .ok () s :=
  checkDataBounds_clear fun hgap => BitVec.not_le.mpr h hgap.1

theorem checkDataBounds_below_pop {a : Word} (h : a < s.reg .st - 1) :
    checkDataBounds a (s.setReg .st (s.reg .st - 1)) = .ok () (s.setReg .st (s.reg .st - 1)) :=
  checkDataBounds_below (by simpa using h)

/-- The state after an input routine stored `w` at `a`: one pop, one data word, the input shortened. -/
theorem frame_input (v a w : Word) (rest : List Byte) :
    Frame [.st] (fun b => b = a) s (((s.setReg .st v).setInput rest).setData a w) := by
  refine ⟨fun r hr => ?_, fun b hb => ?_, rfl⟩
  · have hne : r ≠ .st := by simpa using hr
    simp [hne]
  · simp [hb]

theorem toNat_zextByte (b : Byte) : (zextByte b).toNat = b.toNat :=
  BitVec.toNat_setWidth_of_le (by decide)

/-- Settles O47: the address passes the check, and the byte read goes to it. -/
theorem getStoresInputByte : Obligations.GetStoresInputByte := by
  intro s b rest hne ha hin
  refine ⟨((s.setReg .st (s.reg .st - 1)).setInput rest).setData (s.below 0) (zextByte b), ?_, by simp, ?_, rfl, rfl,
    frame_input _ _ _ _, rfl, rfl, rfl⟩
  · rw [exec_primGet_nonempty hne]
    exact conclude_ok (by
      simp only [M.bind_apply, checkDataBounds_below_pop ha, inRead_byte (s := s.setReg .st (s.reg .st - 1)) hin, update_apply])
  · rw [State.dataAt_setData, if_pos rfl, toNat_zextByte]

theorem parseInput_some {i : Int} {consumed : Nat} (h : Config.parseInt s.input = some (i, consumed)) :
    parseInput s = .ok i (s.setInput (s.input.drop consumed)) := by simp [parseInput, h]

theorem parseInput_none (h : Config.parseInt s.input = none) : parseInput s = .error .ioFault s := by simp [parseInput, h]

/-- Settles O50: by what `PARSE_INT` answers. -/
theorem getintStoresParsedInteger : Obligations.GetintStoresParsedInteger := by
  intro s hne ha
  rw [exec_primGetint_nonempty hne]
  cases hparse : Config.parseInt s.input with
  | none =>
    refine ⟨_, conclude_error (k := .ioFault) (t := s.setReg .st (s.reg .st - 1)) ?_, rfl⟩
    simp only [M.bind_apply, checkDataBounds_below_pop ha, parseInput_none (s := s.setReg .st (s.reg .st - 1)) hparse]
  | some answer =>
    obtain ⟨i, consumed⟩ := answer
    refine ⟨((s.setReg .st (s.reg .st - 1)).setInput (s.input.drop consumed)).setData (s.below 0) (wrap16 i), conclude_ok ?_,
      by simp, by rw [State.dataAt_setData, if_pos rfl, wrap16], rfl, rfl, frame_input _ _ _ _, rfl, rfl, rfl⟩
    simp only [M.bind_apply, checkDataBounds_below_pop ha, parseInput_some (s := s.setReg .st (s.reg .st - 1)) hparse, update_apply,
      State.input_setReg]

/-- Settles O52: the check comes before the stream, and the stream raises where it ends. -/
theorem streamFaults : Obligations.StreamFaults := by
  refine fun s => ⟨fun i hi hne hgap => ?_, fun hne ha hin => ?_, fun hline => conclude_error (readLine_none hline)⟩
  · have hcheck : checkDataBounds (s.below 0) (s.setReg .st (s.reg .st - 1)) =
        .error .dataAccessViolation (s.setReg .st (s.reg .st - 1)) := checkDataBounds_gap (by simpa using hgap)
    simp only [List.mem_cons, List.not_mem_nil, or_false] at hi
    obtain rfl | rfl := hi
    · rw [exec_primGet_nonempty hne]
      exact conclude_error (by simp only [M.bind_apply, hcheck])
    · rw [exec_primGetint_nonempty hne]
      exact conclude_error (by simp only [M.bind_apply, hcheck])
  · rw [exec_primGet_nonempty hne]
    exact conclude_error (by
      simp only [M.bind_apply, checkDataBounds_below_pop ha, inRead_end (s := s.setReg .st (s.reg .st - 1)) hin])

/-! ## The decimal form -/

/-- The number that ASCII digits stand for in base ten. -/
def digitsValue (digits : List Byte) : Nat := digits.foldl (fun value b => 10 * value + (b.toNat - 0x30)) 0

theorem digitsValue_append (digits : List Byte) (b : Byte) : digitsValue (digits ++ [b]) = 10 * digitsValue digits + (b.toNat - 0x30) := by
  simp [digitsValue]

/-- `digits` is the decimal form of `n` (45_primitives_io.md R158): ASCII digits, at least one, no leading zero but that of 0 itself. -/
structure IsDecimal (n : Nat) (digits : List Byte) : Prop where
  nonempty : digits ≠ []
  ascii : ∀ b ∈ digits, 0x30 ≤ b.toNat ∧ b.toNat ≤ 0x39
  leading : digits.head? = some 0x30 → digits = [0x30]
  value : digitsValue digits = n

theorem toNat_digitByte {k : Nat} (h : k < 10) : (digitByte k).toNat = 0x30 + k := by
  rw [digitByte, BitVec.toNat_ofNat]
  omega

theorem isDecimal_digit {n : Nat} (h : n < 10) : IsDecimal n [digitByte n] where
  nonempty := by simp
  ascii b hb := by
    rw [List.mem_singleton.mp hb, toNat_digitByte h]
    omega
  leading hhead := by rw [Option.some_inj.mp hhead]
  value := by simp [digitsValue, toNat_digitByte h]

/-- A digit more at the end, where the digits before it stand for a positive number. -/
theorem isDecimal_append {n k : Nat} {digits : List Byte} (h : IsDecimal n digits) (hn : 0 < n) (hk : k < 10) :
    IsDecimal (10 * n + k) (digits ++ [digitByte k]) where
  nonempty := by simp
  ascii b hb := by
    obtain hb | hb := List.mem_append.mp hb
    · exact h.ascii b hb
    · rw [List.mem_singleton.mp hb, toNat_digitByte hk]
      omega
  leading hhead := by
    rw [List.head?_append_of_ne_nil _ h.nonempty] at hhead
    have hzero := h.value
    rw [h.leading hhead] at hzero
    exact absurd hzero hn.ne
  value := by rw [digitsValue_append, h.value, toNat_digitByte hk, Nat.add_sub_cancel_left]

theorem isDecimal_decimalDigits {fuel n : Nat} (hfuel : 0 < fuel) (h : n < 10 ^ fuel) : IsDecimal n (decimalDigits fuel n) := by
  induction fuel generalizing n with
  | zero => omega
  | succ fuel ih =>
    unfold decimalDigits
    split
    · exact isDecimal_digit ‹_›
    · have hfuel : 0 < fuel := Nat.pos_of_ne_zero (by rintro rfl; omega)
      have hprefix := ih hfuel (n := n / 10) (by rw [Nat.pow_succ] at h; omega)
      simpa [Nat.div_add_mod] using isDecimal_append hprefix (by omega) (Nat.mod_lt n (by decide : 0 < 10))

theorem natAbs_toInt_lt (w : Word) : w.toInt.natAbs < 10 ^ 5 := by
  have := w.isLt
  rw [BitVec.toInt_eq_toNat_cond]
  split <;> omega

theorem exec_primPutint_nonempty (h : s.reg .st ≠ 0) :
    exec .primPutint s = .next ((s.setReg .st (s.reg .st - 1)).emit (decimal (s.below 0).toInt)) :=
  conclude_ok (by simp only [M.bind_apply, popSigned_nonempty h, outWrite_apply])

theorem decimal_eq (i : Int) : decimal i = (if i < 0 then [0x2D] else []) ++ decimalDigits 5 i.natAbs := by
  unfold decimal
  split <;> rfl

/-- Settles O51: the digits are the decimal form of the magnitude, which five digits hold. -/
theorem putintWritesDecimal : Obligations.PutintWritesDecimal := by
  intro s h
  obtain ⟨hnonempty, hascii, hleading, hvalue⟩ := isDecimal_decimalDigits (by decide : 0 < 5) (natAbs_toInt_lt (s.below 0))
  refine ⟨_, _, exec_primPutint_nonempty h, by simp, ?_, hnonempty, hascii, hleading, hvalue, rfl, frame_emit _ _, rfl, rfl, rfl⟩
  rw [State.output_emit, decimal_eq, List.append_assoc]
  rfl

end Sys2Proof.Machine

/-! Said once, for the statements on frames and faults: what an instruction other than `HALT` can answer. -/

namespace Sys2Proof.Machine

variable {α : Type} {i : Instr} {s s0 t u : State} {v : Word}

/-! ## What the operations on the stack leave alone -/

/-- Whichever way `x` ends, it changes only `ST` and data words at the addresses `T` says of the state it runs on. -/
def Moves (T : State → Word → Prop) (x : M α) : Prop := Keeps (fun s u => Frame [.st] (T s) s u ∧ Quiet s u) x

/-- Everything but `ST` and the data words is the same. -/
def SameBesideStack (s u : State) : Prop := Frame [.st] (fun _ => True) s u ∧ Quiet s u

theorem sameBesideStack_refl (s : State) : SameBesideStack s s := ⟨frame_refl s, quiet_refl s⟩

theorem sameBesideStack_trans (s t u : State) (h1 : SameBesideStack s t) (h2 : SameBesideStack t u) : SameBesideStack s u := by
  obtain ⟨⟨hregs1, -, hcode1⟩, ⟨hstatus1, herr1, hfaddr1⟩, hin1, hout1⟩ := h1
  obtain ⟨⟨hregs2, -, hcode2⟩, ⟨hstatus2, herr2, hfaddr2⟩, hin2, hout2⟩ := h2
  exact ⟨⟨fun r hr => (hregs2 r hr).trans (hregs1 r hr), fun _ h => absurd trivial h, hcode2.trans hcode1⟩,
    ⟨hstatus2.trans hstatus1, herr2.trans herr1, hfaddr2.trans hfaddr1⟩, hin2.trans hin1, hout2.trans hout1⟩

theorem sameBesideStack_setReg (s : State) (v : Word) : SameBesideStack s (s.setReg .st v) :=
  ⟨frame_then_setReg v (by simp) (frame_refl s), quiet_refl s⟩

theorem sameBesideStack_setData (s : State) (a v : Word) : SameBesideStack s (s.setData a v) :=
  ⟨⟨fun _ _ => rfl, fun _ h => absurd trivial h, rfl⟩, quiet_refl s⟩

theorem sameBesideStack_checkDataBounds (a : Word) : Keeps SameBesideStack (checkDataBounds a) :=
  keeps_bind sameBesideStack_trans (keeps_look sameBesideStack_refl _) fun _ =>
    keeps_bind sameBesideStack_trans (keeps_look sameBesideStack_refl _) fun _ => keeps_raiseIf sameBesideStack_refl _ _

theorem sameBesideStack_pushData (w : Word) : Keeps SameBesideStack (pushData w) :=
  keeps_bind sameBesideStack_trans (keeps_look sameBesideStack_refl _) fun _ =>
    keeps_bind sameBesideStack_trans (keeps_look sameBesideStack_refl _) fun _ =>
    keeps_bind sameBesideStack_trans (keeps_raiseIf sameBesideStack_refl _ _) fun _ =>
    keeps_bind sameBesideStack_trans (keeps_update fun s => sameBesideStack_setData s _ _) fun _ =>
    keeps_update fun s => sameBesideStack_setReg s _

theorem sameBesideStack_pushWords : ∀ vs, Keeps SameBesideStack (pushWords vs)
  | [] => keeps_pure sameBesideStack_refl _
  | w :: ws => keeps_bind sameBesideStack_trans (sameBesideStack_pushData w) fun _ => sameBesideStack_pushWords ws

theorem sameBesideStack_loadBlock : ∀ n a, Keeps SameBesideStack (loadBlock a n)
  | 0, _ => keeps_pure sameBesideStack_refl _
  | n + 1, a => keeps_bind sameBesideStack_trans (sameBesideStack_checkDataBounds a) fun _ =>
    keeps_bind sameBesideStack_trans (keeps_look sameBesideStack_refl _) fun w =>
    keeps_bind sameBesideStack_trans (sameBesideStack_pushData w) fun _ => sameBesideStack_loadBlock n (a + 1)

theorem sameBesideStack_storeWords : ∀ vs a, Keeps SameBesideStack (storeWords a vs)
  | [], _ => keeps_pure sameBesideStack_refl _
  | w :: ws, a => keeps_bind sameBesideStack_trans (sameBesideStack_checkDataBounds a) fun _ =>
    keeps_bind sameBesideStack_trans (keeps_update fun s => sameBesideStack_setData s a w) fun _ =>
    sameBesideStack_storeWords ws (a + 1)

/-- The addresses touched, and the rest left alone, put together. -/
theorem moves_of_touchesOnly {T : State → Word → Prop} {x : M α} (hdata : TouchesOnly T x) (hrest : Keeps SameBesideStack x) :
    Moves T x := by
  intro s
  have h1 := hdata s
  have h2 := hrest s
  cases hx : x s <;> rw [hx] at h1 h2 <;> exact ⟨⟨h2.1.1, h1, h2.1.2.2⟩, h2.2⟩

theorem moves_pushData (w : Word) : Moves (fun s a => a = s.reg .st) (pushData w) :=
  moves_of_touchesOnly (touchesOnly_pushData w) (sameBesideStack_pushData w)

theorem moves_pushWords (vs : List Word) : Moves (fun s => InBlock (s.reg .st) vs.length) (pushWords vs) :=
  moves_of_touchesOnly (touchesOnly_pushWords vs) (sameBesideStack_pushWords vs)

theorem moves_loadBlock (n : Nat) (a : Word) : Moves (fun s => InBlock (s.reg .st) n) (loadBlock a n) :=
  moves_of_touchesOnly (touchesOnly_loadBlock n a) (sameBesideStack_loadBlock n a)

theorem moves_storeBlock (vs : List Word) (a : Word) : Moves (fun _ => InBlock a vs.length) (storeBlock a vs) := by
  simpa [storeBlock] using moves_of_touchesOnly (touchesOnly_storeWords vs.reverse a) (sameBesideStack_storeWords _ a)

theorem moves_ok {T : State → Word → Prop} {x : M α} {a : α} (hx : Moves T x) (h : x s = .ok a u) :
    Frame [.st] (T s) s u ∧ Quiet s u := by
  have hs := hx s
  rwa [h] at hs

theorem moves_error {T : State → Word → Prop} {x : M α} {k : ErrKind} (hx : Moves T x) (h : x s = .error k u) :
    Frame [.st] (T s) s u ∧ Quiet s u := by
  have hs := hx s
  rwa [h] at hs

/-! ## What an instruction can answer -/

/-- What the sub-steps of an instruction change at most, from `s` to `u`: the registers and data words the spec lists for it, and of the
streams what its routine reads or writes. -/
structure Footprint (i : Instr) (s u : State) : Prop where
  frame : Frame (writtenRegs i) (storesTo i s) s u
  report : SameReport s u
  input : i ∉ [Instr.primGet, .primGeteol, .primGetint] → u.input = s.input
  suffix : ∃ n, u.input = s.input.drop n
  output : i ∉ [Instr.primPut, .primPuteol, .primPutint] → u.output = s.output
  appended : ∃ bytes, u.output = s.output ++ bytes

/-- An instruction answers what its sub-steps leave, or that with a fault taken, before `CP` is written, of a kind R173 lists while the
heap top is pinned. -/
def Answers (i : Instr) (s : State) (o : Host.Outcome State Fault Refusal) : Prop :=
  ∃ u, Footprint i s u ∧
    (o = .next u ∨ ∃ k, o = .next (u.faulted k) ∧ u.reg .cp = s.reg .cp ∧ (s.HeapPinned → k ∈ mayRaise i))

theorem footprint_of_quiet (hframe : Frame (writtenRegs i) (storesTo i s) s u) (hquiet : Quiet s u) : Footprint i s u :=
  ⟨hframe, hquiet.1, fun _ => hquiet.2.1, ⟨0, hquiet.2.1⟩, fun _ => hquiet.2.2, ⟨[], by rw [hquiet.2.2, List.append_nil]⟩⟩

theorem footprint_refl : Footprint i s s := footprint_of_quiet (frame_refl s) (quiet_refl s)

theorem footprint_setReg {r : Reg} (hr : r ∈ writtenRegs i) (h : Footprint i s u) : Footprint i s (u.setReg r v) :=
  ⟨frame_then_setReg v hr h.frame, h.report, h.input, h.suffix, h.output, h.appended⟩

theorem answers_fault {k : ErrKind} (h : Footprint i s u) (hcp : u.reg .cp = s.reg .cp) (hk : k ∈ mayRaise i) :
    Answers i s (.next (u.faulted k)) := ⟨u, h, .inr ⟨k, rfl, hcp, fun _ => hk⟩⟩

/-- A fault with nothing done. -/
theorem answers_fault_here {k : ErrKind} (hk : k ∈ mayRaise i) : Answers i s (.next (s.faulted k)) := answers_fault footprint_refl rfl hk

/-- A fault with only pops done. -/
theorem answers_fault_popped {k : ErrKind} (hst : Reg.st ∈ writtenRegs i) (hk : k ∈ mayRaise i) :
    Answers i s (.next ((s.setReg .st v).faulted k)) :=
  answers_fault (footprint_setReg hst footprint_refl) (by simp) hk

theorem answers_conclude {x : M Unit} (hok : ∀ u, x s0 = .ok () u → Footprint i s u)
    (herr : ∀ k u, x s0 = .error k u → Footprint i s u ∧ u.reg .cp = s.reg .cp ∧ (s.HeapPinned → k ∈ mayRaise i)) :
    Answers i s (conclude x s0) := by
  obtain ⟨u, hu, hconclude⟩ | ⟨k, u, hu, hconclude⟩ := conclude_cases x s0
  · exact ⟨u, hok u hu, .inl hconclude⟩
  · exact ⟨u, (herr k u hu).1, .inr ⟨k, hconclude, (herr k u hu).2⟩⟩

/-- What moves the stack after pops has the instruction's footprint when it touches only the instruction's addresses. -/
theorem footprint_after_pops (hst : Reg.st ∈ writtenRegs i) {touched : Word → Prop} (htouched : ∀ a, touched a → storesTo i s a)
    (h : Frame [.st] touched (s.setReg .st v) u ∧ Quiet (s.setReg .st v) u) : Footprint i s u ∧ u.reg .cp = s.reg .cp := by
  obtain ⟨hframe, hquiet⟩ := h
  obtain ⟨hregs, hdata, hcode⟩ := frame_after_setReg (by simp) hframe
  refine ⟨footprint_of_quiet ⟨fun r hr => hregs r ?_, fun a ha => hdata a (mt (htouched a) ha), hcode⟩ hquiet, hregs .cp (by decide)⟩
  rw [List.mem_singleton]
  rintro rfl
  exact hr hst

/-- An instruction that, after pops, only moves the stack. -/
theorem answers_moves {T : State → Word → Prop} {x : M Unit} (hx : Moves T x) (hs0 : s0 = s.setReg .st v)
    (hst : Reg.st ∈ writtenRegs i) (hT : ∀ a, T s0 a → storesTo i s a)
    (hk : s.HeapPinned → ∀ k u, x s0 = .error k u → k ∈ mayRaise i) : Answers i s (conclude x s0) := by
  subst hs0
  refine answers_conclude (fun u hu => (footprint_after_pops hst hT (moves_ok hx hu)).1) fun k u hu => ?_
  obtain ⟨hfootprint, hcp⟩ := footprint_after_pops hst hT (moves_error hx hu)
  exact ⟨hfootprint, hcp, fun hp => hk hp k u hu⟩

/-- An instruction that pushes one word after pops; after at least one pop that cannot overflow while the heap top is pinned. -/
theorem answers_push {w : Word} (pops : Nat) (hst : Reg.st ∈ writtenRegs i) (hstore : storesTo i s (s.reg .st - BitVec.ofNat 16 pops))
    (hk : ErrKind.stackOverflow ∈ mayRaise i ∨ 0 < pops ∧ pops ≤ s.top) :
    Answers i s (conclude (pushData w) (s.setReg .st (s.reg .st - BitVec.ofNat 16 pops))) := by
  refine answers_moves (moves_pushData w) rfl hst (by simpa using hstore) fun hp k u hu => ?_
  obtain hk | ⟨h1, h2⟩ := hk
  · exact raisesOnly_pushData hk w _ k u hu
  · obtain ⟨t, hpush, -⟩ := pushData_delivers w (room_after_pops hp h1 h2)
    rw [hpush] at hu
    cases hu

theorem answers_push_here {w : Word} (hst : Reg.st ∈ writtenRegs i) (hstore : storesTo i s (s.reg .st))
    (hk : ErrKind.stackOverflow ∈ mayRaise i) : Answers i s (conclude (pushData w) s) := by
  simpa using answers_push (w := w) 0 hst (by simpa using hstore) (.inl hk)

/-! ## Loads and stores -/

theorem answers_load (r : Reg) (n : BitVec 8) (d : Word) : Answers (.load r n d) s (exec (.load r n d) s) := by
  rw [exec_load]
  exact answers_moves (moves_loadBlock _ _) (s.setReg_reg .st).symm (by simp [writtenRegs]) (fun _ => id)
    fun _ => raisesOnly_loadBlock (by simp [mayRaise]) (by simp [mayRaise]) _ _ s

theorem answers_loadi (n : BitVec 8) : Answers (.loadi n) s (exec (.loadi n) s) := by
  by_cases h : s.reg .st = 0
  · rw [exec_loadi_empty n h]
    exact answers_fault_here (by simp [mayRaise])
  · rw [exec_loadi_nonempty n h]
    exact answers_moves (moves_loadBlock _ _) rfl (by simp [writtenRegs]) (by simp [storesTo])
      fun _ => raisesOnly_loadBlock (by simp [mayRaise]) (by simp [mayRaise]) _ _ _

theorem answers_store (r : Reg) (n : BitVec 8) (d : Word) : Answers (.store r n d) s (exec (.store r n d) s) := by
  by_cases h : n.toNat ≤ s.top
  · rw [exec_store_enough r d h]
    exact answers_moves (moves_storeBlock _ _) rfl (by simp [writtenRegs]) (by simp [storesTo])
      fun _ => raisesOnly_storeWords (by simp [mayRaise]) _ _ _
  · rw [exec_store_short r d (Nat.lt_of_not_le h)]
    exact answers_fault_popped (by simp [writtenRegs]) (by simp [mayRaise])

theorem answers_storei (n : BitVec 8) : Answers (.storei n) s (exec (.storei n) s) := by
  by_cases h : n.toNat + 1 ≤ s.top
  · rw [exec_storei_enough h]
    exact answers_moves (moves_storeBlock _ _) rfl (by simp [writtenRegs]) (by simp [storesTo])
      fun _ => raisesOnly_storeWords (by simp [mayRaise]) _ _ _
  · rw [exec_storei_short (Nat.lt_of_not_le h)]
    exact answers_fault_popped (by simp [writtenRegs]) (by simp [mayRaise])

/-! ## Stack adjustment -/

theorem answers_pushCount (d : Word) : Answers (.push d) s (exec (.push d) s) := by
  obtain ⟨hroom, hfull, hneg⟩ := pushReservesWords s d
  by_cases h0 : 0 ≤ d.toInt
  · by_cases h : s.top + d.toNat < (s.reg .ht).toNat
    · rw [hroom h0 h]
      exact ⟨_, footprint_setReg (by simp [writtenRegs]) footprint_refl, .inl rfl⟩
    · rw [hfull h0 (Nat.le_of_not_lt h)]
      exact answers_fault_here (by simp [mayRaise])
  · rw [hneg (lt_of_not_ge h0)]
    exact answers_fault_here (by simp [mayRaise])

theorem answers_pop (n : BitVec 8) (d : Word) : Answers (.pop n d) s (exec (.pop n d) s) := by
  by_cases h0 : 0 ≤ d.toInt
  · by_cases h : n.toNat + d.toNat ≤ s.top
    · rw [exec_pop_enough h0 h]
      refine answers_moves (moves_pushWords _) rfl (by simp [writtenRegs]) (by simp [storesTo]) fun hp k u hu => ?_
      obtain ⟨u', hpush, -⟩ := pushWords_topWords_room hp (Nat.le_of_add_right_le h) (pop_room h)
      rw [hpush] at hu
      cases hu
    · rw [exec_pop_short h0 (Nat.lt_of_not_le h)]
      exact answers_fault_popped (by simp [writtenRegs]) (by simp [mayRaise])
  · rw [exec_pop_negative (lt_of_not_ge h0)]
    exact answers_fault_here (by simp [mayRaise])

/-! ## Frames -/

/-- Of an instruction that pushes words after pops and then writes `LB` and `CP`: it has its footprint, and it leaves `CP` there unless it
faults, which is before `LB` and `CP` are written. -/
theorem answers_enterFrame {o : Host.Outcome State Fault Refusal} {vs : List Word} {lb : State → Word} {cp : Word}
    (hregs : ∀ r ∈ [Reg.st, .lb, .cp], r ∈ writtenRegs i) (hstores : ∀ a, InBlock v vs.length a → storesTo i s a) (hk : ErrKind.stackOverflow ∈ mayRaise i)
    (ho : o = conclude (pushWords vs >>= fun _ => enterFrame lb cp) (s.setReg .st v)) :
    Answers i s o ∧ ∀ t, o = .next t → t.status = .faulted ∨ t.reg .cp = cp := by
  subst ho
  have hmoves := moves_pushWords vs
  have hstores : ∀ a, InBlock ((s.setReg .st v).reg .st) vs.length a → storesTo i s a := by simpa using hstores
  cases hpush : pushWords vs (s.setReg .st v) with
  | ok _ u =>
    have hu := (footprint_after_pops (hregs .st (by simp)) hstores (moves_ok hmoves hpush)).1
    have hdone : (pushWords vs >>= fun _ => enterFrame lb cp) (s.setReg .st v) = .ok () ((u.setReg .lb (lb u)).setReg .cp cp) := by
      simp only [M.bind_apply, hpush, enterFrame, update_apply]
    rw [conclude_ok hdone]
    refine ⟨⟨_, footprint_setReg (hregs .cp (by simp)) (footprint_setReg (hregs .lb (by simp)) hu), .inl rfl⟩, ?_⟩
    rintro t ⟨⟩
    exact .inr (by simp)
  | error k u =>
    obtain ⟨hu, hcp⟩ := footprint_after_pops (hregs .st (by simp)) hstores (moves_error hmoves hpush)
    have hraise : (pushWords vs >>= fun _ => enterFrame lb cp) (s.setReg .st v) = .error k u := by simp only [M.bind_apply, hpush]
    rw [conclude_error hraise]
    refine ⟨answers_fault hu hcp (raisesOnly_pushWords hk vs _ k u hpush), ?_⟩
    rintro t ⟨⟩
    exact .inl rfl

/-- RETURN faults before the links go back, or sets `CP` to the return address of the frame. -/
theorem answers_ret (n : BitVec 8) (d : Word) : Answers (.ret n d) s (exec (.ret n d) s) ∧
    ∀ t, exec (.ret n d) s = .next t → t.status = .faulted ∨ t.reg .cp = s.dataAt (s.reg .lb + 2) := by
  by_cases h0 : 0 ≤ d.toInt
  · by_cases h : n.toNat ≤ s.top ∧ d.toNat ≤ (s.reg .lb).toNat
    · exact answers_enterFrame (by simp [writtenRegs]) (by simp [storesTo]) (by simp [mayRaise]) (exec_ret_enough h0 h.1 h.2)
    · rw [exec_ret_short h0 (by omega)]
      exact ⟨answers_fault_popped (by simp [writtenRegs]) (by simp [mayRaise]), fun t ht => .inl (by cases ht; rfl)⟩
  · rw [exec_ret_negative (lt_of_not_ge h0)]
    exact ⟨answers_fault_here (by simp [mayRaise]), fun t ht => .inl (by cases ht; rfl)⟩

/-- A call whose checks pass pushes the three links and then enters the frame. -/
theorem callFrame_eq_pushWords {r : Reg} {n : BitVec 8} {d link : Word} (hc : s.calcAddress r d < s.reg .ct)
    (hn : staticLink n s = .ok link s) :
    callFrame r n d s =
      (pushWords [link, s.reg .lb, s.reg .cp] >>= fun _ => enterFrame (fun u => u.reg .st - 3) (s.calcAddress r d)) s := by
  simp only [callFrame, M.bind_apply, calcAddress_apply, look_apply, raiseIf_false _ _ (BitVec.not_le.mpr hc), hn, pushWords,
    M.pure_apply, enterFrame, update_apply]
  by_cases h0 : s.reg .ht ≤ s.reg .st
  · rw [pushData_full _ h0]
  rw [pushData_room _ (BitVec.not_le.mp h0)]
  simp only [State.reg_setReg, State.reg_setData, reduceCtorEq, if_false]
  by_cases h1 : s.reg .ht ≤ s.reg .st + 1
  · rw [pushData_full _ (by simpa using h1)]
  rw [pushData_room _ (by simpa using BitVec.not_le.mp h1)]
  simp only [State.reg_setReg, State.reg_setData, reduceCtorEq, if_false]
  cases pushData (s.reg .cp) _ <;> rfl

/-- A frame-path CALL faults before `LB` and `CP` are written, or sets `CP` to its target, which it checked. -/
theorem answers_call {r : Reg} {d : Word} (n : BitVec 8) (hsel : selectsPrimitive r d = false) :
    Answers (.call r n d) s (exec (.call r n d) s) ∧
      ∀ t, exec (.call r n d) s = .next t →
        t.status = .faulted ∨ t.reg .cp = s.calcAddress r d ∧ s.calcAddress r d < s.reg .ct := by
  rw [exec_call_frame n hsel]
  by_cases hc : s.calcAddress r d < s.reg .ct
  · by_cases hn : n.toNat < 16
    · obtain ⟨q, rfl⟩ := regOfCount_some hn
      obtain ⟨hanswers, hcp⟩ := answers_enterFrame (i := .call r ((regNumber q).setWidth 8) d) (v := s.reg .st)
        (vs := [s.reg q, s.reg .lb, s.reg .cp]) (lb := fun u => u.reg .st - 3) (cp := s.calcAddress r d) (by simp [writtenRegs])
        (fun _ => id) (by simp [mayRaise]) rfl
      have hexec : conclude (callFrame r ((regNumber q).setWidth 8) d) s =
          conclude (pushWords [s.reg q, s.reg .lb, s.reg .cp] >>= fun _ => enterFrame (fun u => u.reg .st - 3) (s.calcAddress r d))
            (s.setReg .st (s.reg .st)) := by
        rw [State.setReg_reg, conclude, conclude, callFrame_eq_pushWords hc (staticLink_reg q)]
      rw [hexec]
      exact ⟨hanswers, fun t ht => (hcp t ht).imp_right fun h => ⟨h, hc⟩⟩
    · rw [conclude_error (callFrame_noRegister hc (Nat.le_of_not_lt hn))]
      exact ⟨answers_fault_here (by simp [mayRaise]), fun t ht => .inl (by cases ht; rfl)⟩
  · rw [conclude_error (callFrame_beyond n (BitVec.not_lt.mp hc))]
    exact ⟨answers_fault_here (by simp [mayRaise]), fun t ht => .inl (by cases ht; rfl)⟩

/-! ## Jumps -/

/-- A checked jump after pops. -/
theorem answers_jumpTo {target : Word} (hs0 : s0 = s.setReg .st v) (hst : v = s.reg .st ∨ Reg.st ∈ writtenRegs i)
    (hcp : Reg.cp ∈ writtenRegs i) (hk : ErrKind.codeAccessViolation ∈ mayRaise i) : Answers i s (conclude (jumpTo target) s0) := by
  have hpops : Footprint i s (s.setReg .st v) := by
    obtain rfl | hst := hst
    · rw [State.setReg_reg]
      exact footprint_refl
    · exact footprint_setReg hst footprint_refl
  subst hs0
  by_cases h : target < s.reg .ct
  · rw [conclude_ok (jumpTo_inside (by simpa using h))]
    exact ⟨_, footprint_setReg hcp hpops, .inl rfl⟩
  · rw [conclude_error (jumpTo_beyond (by simpa using BitVec.not_lt.mp h))]
    exact answers_fault hpops (by simp) hk

theorem answers_jumpi : Answers .jumpi s (exec .jumpi s) := by
  by_cases h : s.reg .st = 0
  · rw [exec_jumpi_empty h]
    exact answers_fault_here (by simp [mayRaise])
  · rw [exec_jumpi_nonempty h]
    exact answers_jumpTo rfl (.inr (by simp [writtenRegs])) (by simp [writtenRegs]) (by simp [mayRaise])

theorem answers_jumpif (r : Reg) (n : BitVec 8) (d : Word) : Answers (.jumpif r n d) s (exec (.jumpif r n d) s) := by
  by_cases h : s.reg .st = 0
  · rw [exec_jumpif_empty r n d h]
    exact answers_fault_here (by simp [mayRaise])
  · by_cases hn : (s.below 0).toInt = n.toNat
    · rw [exec_jumpif_equal r d h hn]
      exact answers_jumpTo rfl (.inr (by simp [writtenRegs])) (by simp [writtenRegs]) (by simp [mayRaise])
    · rw [exec_jumpif_other r d h hn]
      exact ⟨_, footprint_setReg (by simp [writtenRegs]) footprint_refl, .inl rfl⟩

/-! ## Routines -/

theorem answers_unary {f : Int → Word} (hexec : exec i s = conclude (unaryRoutine f) s) (hst : Reg.st ∈ writtenRegs i)
    (hstore : storesTo i s (s.reg .st - 1)) (hk : ErrKind.stackUnderflow ∈ mayRaise i) : Answers i s (exec i s) := by
  rw [hexec]
  by_cases h : s.reg .st = 0
  · rw [conclude_error (unaryRoutine_empty f h)]
    exact answers_fault_here hk
  · have hpop : conclude (unaryRoutine f) s = conclude (pushData (f (s.below 0).toInt)) (s.setReg .st (s.reg .st - 1)) := by
      simp only [conclude, unaryRoutine, M.bind_apply, popSigned_nonempty h]
    rw [hpop]
    exact answers_push 1 hst hstore (.inr ⟨Nat.one_pos, top_pos_iff.mpr h⟩)

theorem answers_binary {f : Int → Int → Word} (hexec : exec i s = conclude (binaryRoutine f) s) (hst : Reg.st ∈ writtenRegs i)
    (hstore : storesTo i s (s.reg .st - 2)) (hk : ErrKind.stackUnderflow ∈ mayRaise i) : Answers i s (exec i s) := by
  rw [hexec]
  by_cases h : 2 ≤ s.top
  · have hpop : conclude (binaryRoutine f) s =
        conclude (pushData (f (s.below 1).toInt (s.below 0).toInt)) (s.setReg .st (s.reg .st - 2)) := by
      simp only [conclude, binaryRoutine, M.bind_apply, pop2_enough h]
    rw [hpop]
    exact answers_push 2 hst hstore (.inr ⟨Nat.two_pos, h⟩)
  · rw [conclude_error (binaryRoutine_short f (Nat.lt_of_not_le h))]
    exact answers_fault_popped hst hk

theorem answers_dividing {f : Int → Int → Word} (hexec : exec i s = conclude (dividingRoutine f) s) (hst : Reg.st ∈ writtenRegs i)
    (hstore : storesTo i s (s.reg .st - 2)) (hk : ErrKind.stackUnderflow ∈ mayRaise i) (hzero : ErrKind.arithmeticFault ∈ mayRaise i) :
    Answers i s (exec i s) := by
  rw [hexec]
  by_cases h : 2 ≤ s.top
  · by_cases hb : s.below 0 = 0
    · rw [conclude_error (dividingRoutine_zero f h hb)]
      exact answers_fault_popped hst hzero
    · have hpop : conclude (dividingRoutine f) s =
          conclude (pushData (f (s.below 1).toInt (s.below 0).toInt)) (s.setReg .st (s.reg .st - 2)) := by
        simp only [conclude, dividingRoutine, M.bind_apply, pop2_enough h, raiseIf_false _ _ (mt toInt_eq_zero_iff.mp hb)]
      rw [hpop]
      exact answers_push 2 hst hstore (.inr ⟨Nat.two_pos, h⟩)
  · rw [conclude_error (dividingRoutine_short f (Nat.lt_of_not_le h))]
    exact answers_fault_popped hst hk

/-- Where a comparison of blocks of `w` words puts its result. -/
theorem sub_compare_pops (a w : Word) : a - BitVec.ofNat 16 (1 + 2 * w.toNat) = a - 1 - (w + w) := by
  rw [BitVec.ofNat_add, two_mul, BitVec.ofNat_add, BitVec.ofNat_toNat, BitVec.setWidth_eq, ← sub_sub]
  rfl

theorem answers_compare (hi : i ∈ [Instr.primEq, .primNeq]) (hst : Reg.st ∈ writtenRegs i)
    (hstore : storesTo i s (s.reg .st - 1 - (s.below 0 + s.below 0))) (hk : ErrKind.stackUnderflow ∈ mayRaise i)
    (hillegal : ErrKind.illegalInstruction ∈ mayRaise i) : Answers i s (exec i s) := by
  obtain ⟨hempty, hnegative, hshort⟩ := blockCompareFaults s i hi
  by_cases h : s.reg .st = 0
  · rw [hempty h]
    exact answers_fault_here hk
  by_cases h0 : 0 ≤ (s.below 0).toInt
  · by_cases henough : 1 + 2 * (s.below 0).toNat ≤ s.top
    · obtain ⟨f, hexec⟩ := exec_compare hi
      simp only [hexec, conclude, M.bind_apply, blockCompare_enough h0 rfl henough]
      exact answers_push (1 + 2 * (s.below 0).toNat) hst (by rwa [sub_compare_pops]) (.inr ⟨by omega, henough⟩)
    · rw [hshort h h0 (Nat.lt_of_not_le henough)]
      exact answers_fault_popped hst hk
  · rw [hnegative h (lt_of_not_ge h0)]
    exact answers_fault_popped hst hillegal

/-! ## Streams -/

theorem footprint_emit {bytes : List Byte} (hi : i ∈ [Instr.primPut, .primPuteol, .primPutint]) (h : Footprint i s u) :
    Footprint i s (u.emit bytes) := by
  obtain ⟨written, hwritten⟩ := h.appended
  exact ⟨h.frame, h.report, h.input, h.suffix, fun hnot => absurd hi hnot,
    written ++ bytes, by rw [State.output_emit, hwritten, List.append_assoc]⟩

theorem footprint_setInput {rest : List Byte} (hi : i ∈ [Instr.primGet, .primGeteol, .primGetint]) (hrest : ∃ n, rest = s.input.drop n)
    (h : Footprint i s u) : Footprint i s (u.setInput rest) :=
  ⟨h.frame, h.report, fun hnot => absurd hi hnot, hrest, h.output, h.appended⟩

theorem footprint_setData {a w : Word} (ha : storesTo i s a) (h : Footprint i s u) : Footprint i s (u.setData a w) := by
  refine ⟨⟨h.frame.1, fun b hb => ?_, h.frame.2.2⟩, h.report, h.input, h.suffix, h.output, h.appended⟩
  rw [State.dataAt_setData, if_neg, h.frame.2.1 b hb]
  rintro rfl
  exact hb ha

/-- A routine that pops a word and writes bytes for it. -/
theorem answers_output {bytes : List Byte} (hi : i ∈ [Instr.primPut, .primPutint])
    (hexec : s.reg .st ≠ 0 → exec i s = .next ((s.setReg .st (s.reg .st - 1)).emit bytes)) (hst : Reg.st ∈ writtenRegs i)
    (hk : ErrKind.stackUnderflow ∈ mayRaise i) : Answers i s (exec i s) := by
  by_cases h : s.reg .st = 0
  · rw [exec_stream_empty (List.mem_append_left [Instr.primGet, .primGetint] hi) h]
    exact answers_fault_here hk
  · rw [hexec h]
    have hwriter : i ∈ [Instr.primPut, .primPuteol, .primPutint] := by
      simp only [List.mem_cons, List.not_mem_nil, or_false] at hi ⊢
      tauto
    exact ⟨_, footprint_emit hwriter (footprint_setReg hst footprint_refl), .inl rfl⟩

/-- A routine that, after its pop, reads the input with `x` and stores what `x` delivers. -/
theorem answers_input {x : M α} {f : α → Word} (hi : i ∈ [Instr.primGet, .primGetint])
    (hexec : s.reg .st ≠ 0 → exec i s = conclude (do
      checkDataBounds (s.below 0)
      let b ← x
      update (·.setData (s.below 0) (f b))) (s.setReg .st (s.reg .st - 1)))
    (hx : ∀ s, x s = .error .ioFault s ∨ ∃ b n, x s = .ok b (s.setInput (s.input.drop n)))
    (hst : Reg.st ∈ writtenRegs i) (hstore : storesTo i s (s.below 0)) (hgap : ErrKind.dataAccessViolation ∈ mayRaise i)
    (hempty : ErrKind.stackUnderflow ∈ mayRaise i) (hio : ErrKind.ioFault ∈ mayRaise i) : Answers i s (exec i s) := by
  by_cases h : s.reg .st = 0
  · rw [exec_stream_empty (List.mem_append_right [Instr.primPut, .primPutint] hi) h]
    exact answers_fault_here hempty
  by_cases ha : s.reg .st - 1 ≤ s.below 0 ∧ s.below 0 ≤ s.reg .ht
  · rw [(streamFaults s).1 i hi h ha]
    exact answers_fault_popped hst hgap
  have hcheck : checkDataBounds (s.below 0) (s.setReg .st (s.reg .st - 1)) = .ok () (s.setReg .st (s.reg .st - 1)) :=
    checkDataBounds_clear (by simpa using ha)
  have hpopped : Footprint i s (s.setReg .st (s.reg .st - 1)) := footprint_setReg hst footprint_refl
  simp only [hexec h, conclude, M.bind_apply, hcheck]
  obtain hx | ⟨b, n, hx⟩ := hx (s.setReg .st (s.reg .st - 1))
  · simp only [hx]
    exact answers_fault hpopped (by simp) hio
  · simp only [hx, update_apply]
    have hreader : i ∈ [Instr.primGet, .primGeteol, .primGetint] := by
      simp only [List.mem_cons, List.not_mem_nil, or_false] at hi ⊢
      tauto
    exact ⟨_, footprint_setData hstore (footprint_setInput hreader ⟨n, rfl⟩ hpopped), .inl rfl⟩

theorem inRead_cases (s : State) : inRead s = .error .ioFault s ∨ ∃ b n, inRead s = .ok b (s.setInput (s.input.drop n)) := by
  cases hin : s.input with
  | nil => exact .inl (inRead_end hin)
  | cons b rest => exact .inr ⟨b, 1, inRead_byte hin⟩

theorem parseInput_cases (s : State) :
    parseInput s = .error .ioFault s ∨ ∃ i n, parseInput s = .ok i (s.setInput (s.input.drop n)) := by
  cases hparse : Config.parseInt s.input with
  | none => exact .inl (parseInput_none hparse)
  | some answer => exact .inr ⟨answer.1, answer.2, parseInput_some hparse⟩

theorem answers_geteol : Answers .primGeteol s (exec .primGeteol s) := by
  by_cases h : lineFeed ∈ s.input
  · obtain ⟨line, rest, hin, hline⟩ := List.eq_append_cons_of_mem h
    have hexec : exec .primGeteol s = .next (s.setInput rest) := conclude_ok (readLine_line hin hline)
    rw [hexec]
    exact ⟨_, footprint_setInput (by simp) ⟨line.length + 1, by simp [hin]⟩ footprint_refl, .inl rfl⟩
  · rw [(streamFaults s).2.2 h]
    exact answers_fault (footprint_setInput (by simp) ⟨s.input.length, by simp⟩ footprint_refl) rfl (by simp [mayRaise])

/-! ## Every instruction -/

/-- What a well-formed instruction other than `HALT` answers. -/
theorem exec_answers (hwf : i.wf = true) (hi : i ≠ .halt) : Answers i s (exec i s) := by
  cases i with
  | load r n d => exact answers_load r n d
  | loada r d => exact answers_push_here (by simp [writtenRegs]) rfl (by simp [mayRaise])
  | loadi n => exact answers_loadi n
  | loadl d => exact answers_push_here (by simp [writtenRegs]) rfl (by simp [mayRaise])
  | store r n d => exact answers_store r n d
  | storei n => exact answers_storei n
  | reserved6 | reserved7 | primReserved27 | primReserved28 => exact answers_fault_here (by simp [mayRaise])
  | call r n d => exact (answers_call n (by simpa [Instr.wf] using hwf)).1
  | ret n d => exact (answers_ret n d).1
  | push d => exact answers_pushCount d
  | pop n d => exact answers_pop n d
  | jump r d => exact answers_jumpTo (s.setReg_reg .st).symm (.inl rfl) (by simp [writtenRegs]) (by simp [mayRaise])
  | jumpi => exact answers_jumpi
  | jumpif r n d => exact answers_jumpif r n d
  | halt => exact absurd rfl hi
  | primId => exact ⟨s, footprint_refl, .inl rfl⟩
  | primNot | primSucc | primPred | primNeg => exact answers_unary rfl (by simp [writtenRegs]) rfl (by simp [mayRaise])
  | primAnd | primOr | primAdd | primSub | primMult | primLt | primLe | primGe | primGt =>
    exact answers_binary rfl (by simp [writtenRegs]) rfl (by simp [mayRaise])
  | primDiv | primMod => exact answers_dividing rfl (by simp [writtenRegs]) rfl (by simp [mayRaise]) (by simp [mayRaise])
  | primEq | primNeq => exact answers_compare (by simp) (by simp [writtenRegs]) rfl (by simp [mayRaise]) (by simp [mayRaise])
  | primEol | primEof => exact answers_push_here (by simp [writtenRegs]) rfl (by simp [mayRaise])
  | primGet =>
    exact answers_input (by simp) exec_primGet_nonempty inRead_cases (by simp [writtenRegs]) rfl (by simp [mayRaise])
      (by simp [mayRaise]) (by simp [mayRaise])
  | primPut => exact answers_output (by simp) exec_primPut_nonempty (by simp [writtenRegs]) (by simp [mayRaise])
  | primGeteol => exact answers_geteol
  | primPuteol => exact ⟨_, footprint_emit (by simp) footprint_refl, .inl rfl⟩
  | primGetint =>
    exact answers_input (by simp) exec_primGetint_nonempty parseInput_cases (by simp [writtenRegs]) rfl (by simp [mayRaise])
      (by simp [mayRaise]) (by simp [mayRaise])
  | primPutint => exact answers_output (by simp) exec_primPutint_nonempty (by simp [writtenRegs]) (by simp [mayRaise])

end Sys2Proof.Machine

/-! Settled here: the statements on frames, on `CP` and on the report of a fault (10_state.md, 20_memory.md,
40_fetch_and_stack_primitives.md section 4, 60_exceptions.md sections 2 and 4). -/

namespace Sys2Proof.Machine

variable {i : Instr} {s t : State}

/-- The next state of a well-formed instruction has its footprint, up to STATUS, ERR and FADDR. -/
theorem exec_footprint (hwf : i.wf = true) (hexec : exec i s = .next t) :
    Frame (writtenRegs i) (storesTo i s) s t ∧ (i ∉ [Instr.primGet, .primGeteol, .primGetint] → t.input = s.input) ∧
      (∃ n, t.input = s.input.drop n) ∧ (i ∉ [Instr.primPut, .primPuteol, .primPutint] → t.output = s.output) ∧
      ∃ bytes, t.output = s.output ++ bytes := by
  by_cases hi : i = .halt
  · subst hi
    cases hexec
    exact ⟨frame_refl s, fun _ => rfl, ⟨0, rfl⟩, fun _ => rfl, [], (List.append_nil _).symm⟩
  · obtain ⟨u, hu, hanswer⟩ := exec_answers (s := s) hwf hi
    rw [hexec] at hanswer
    obtain ⟨⟨⟩⟩ | ⟨k, ⟨⟩, -⟩ := hanswer <;> exact ⟨hu.frame, hu.input, hu.suffix, hu.output, hu.appended⟩

/-- Settles O56: the registers of the footprint. -/
theorem registerFrame : Obligations.RegisterFrame := fun _ _ _ hwf hexec => (exec_footprint hwf hexec).1.1

/-- Settles O57: the data words of the footprint. -/
theorem dataFrame : Obligations.DataFrame := fun _ _ _ hwf hexec => (exec_footprint hwf hexec).1.2.1

/-- Settles O58: the streams of the footprint. -/
theorem streamFrame : Obligations.StreamFrame := fun _ _ _ hwf hexec => (exec_footprint hwf hexec).2

/-- A fault is taken before an instruction writes `CP`, at the address before the fetch, and is of a kind R173 lists for it. -/
theorem exec_faulted (hwf : i.wf = true) (hr : s.status = .running) (hexec : exec i s = .next t) (ht : t.status = .faulted) :
    t.reg .cp = s.reg .cp ∧ t.faddr = s.reg .cp - 1 ∧ (s.HeapPinned → t.err ∈ mayRaise i) := by
  have hi : i ≠ .halt := by
    rintro rfl
    cases hexec
    cases ht
  obtain ⟨u, hu, hanswer⟩ := exec_answers (s := s) hwf hi
  rw [hexec] at hanswer
  obtain ⟨⟨⟩⟩ | ⟨k, ⟨⟩, hcp, hk⟩ := hanswer
  · rw [hu.report.1, hr] at ht
    cases ht
  · exact ⟨hcp, congrArg (· - 1) hcp, hk⟩

/-- Settles O13: a fetch that faults reports its own address, and an instruction's fault the one before the fetch. -/
theorem faultReportNamesInstruction : Obligations.FaultReportNamesInstruction := by
  intro s t hp hstep
  obtain ⟨hr, ⟨hc, rfl⟩ | ⟨hc, hexec⟩⟩ := step_cases hstep
  · exact .inl ⟨rfl, rfl, .inl ⟨hc, rfl⟩⟩
  by_cases ht : t.status = .faulted
  · obtain ⟨-, hfaddr, hkind⟩ := exec_faulted (decode_wf _) (by simpa using hr) hexec ht
    exact .inl ⟨ht, by simpa using hfaddr, .inr ⟨hc, hkind hp⟩⟩
  · right
    by_cases hi : decode (s.codeAt (s.reg .cp)) = .halt
    · rw [hi, exec_halt] at hexec
      cases hexec
      exact ⟨ht, rfl, rfl⟩
    · obtain hf | ⟨-, herr, hfaddr⟩ := exec_report hi hexec
      · exact absurd hf ht
      · exact ⟨ht, herr, hfaddr⟩

/-- Settles O30: the dispatch of a CALL agrees with the map of identifiers, and no primitive writes a register but `ST`. -/
theorem callDispatchesPrimitive : Obligations.CallDispatchesPrimitive := by
  intro s t n k i hk
  refine ⟨?_, fun hexec => ?_⟩
  · unfold primMap at hk
    split at hk <;> cases hk <;> rfl
  · have hregs : i.wf = true ∧ Reg.lb ∉ writtenRegs i ∧ Reg.cp ∉ writtenRegs i := by
      unfold primMap at hk
      split at hk <;> cases hk <;> decide
    obtain ⟨hwf, hlb, hcp⟩ := hregs
    exact ⟨registerFrame i s t hwf hexec .lb hlb, registerFrame i s t hwf hexec .cp hcp⟩

/-- A jump taken or refused leaves `CP` at its target, below `CT`, or faults. -/
theorem conclude_jumpTo_cp {target : Word} (hexec : conclude (jumpTo target) s = .next t) (ht : t.status ≠ .faulted) :
    t.reg .cp = target ∧ target < s.reg .ct := by
  by_cases h : target < s.reg .ct
  · rw [conclude_ok (jumpTo_inside h)] at hexec
    cases hexec
    exact ⟨by simp, h⟩
  · rw [conclude_error (jumpTo_beyond (BitVec.not_lt.mp h))] at hexec
    cases hexec
    exact absurd rfl ht

/-- Settles O59: a fault comes before `CP` is written, a transfer that completes writes its target, and no other instruction writes `CP`. -/
theorem codePointerSummary : Obligations.CodePointerSummary := by
  intro i s t hwf hr hexec
  refine ⟨fun ht => (exec_faulted hwf hr hexec ht).1, fun ht => ?_⟩
  cases i with
  | jump r d =>
    obtain ⟨hcp, hct⟩ := conclude_jumpTo_cp hexec ht
    exact ⟨hcp, hcp ▸ hct⟩
  | call r n d =>
    obtain ⟨hcp, hct⟩ := ((answers_call n (by simpa [Instr.wf] using hwf)).2 t hexec).resolve_left ht
    exact ⟨hcp, hcp ▸ hct⟩
  | jumpi =>
    by_cases h : s.reg .st = 0
    · rw [exec_jumpi_empty h] at hexec
      cases hexec
      exact absurd rfl ht
    · rw [exec_jumpi_nonempty h] at hexec
      obtain ⟨hcp, hct⟩ := conclude_jumpTo_cp hexec ht
      exact ⟨hcp, by simpa [hcp] using hct⟩
  | jumpif r n d =>
    by_cases h : s.reg .st = 0
    · rw [exec_jumpif_empty r n d h] at hexec
      cases hexec
      exact absurd rfl ht
    · dsimp only
      split
      · rename_i hn
        rw [exec_jumpif_equal r d h hn] at hexec
        obtain ⟨hcp, hct⟩ := conclude_jumpTo_cp hexec ht
        exact ⟨hcp, by simpa [hcp] using hct⟩
      · rename_i hn
        rw [exec_jumpif_other r d h hn] at hexec
        cases hexec
        simp
  | ret n d => exact ((answers_ret n d).2 t hexec).resolve_left ht
  | _ => exact registerFrame _ s t hwf hexec .cp (by simp [writtenRegs])

end Sys2Proof.Machine
